-- ==== Sys2Proof/Word.lean ====
section
/-! DEFINITION. Word: the two fixed widths of the hardware, the byte of the stream (R10) and the 16-bit header field (R31). Counts, indices and lengths are naturals (R10, R12). -/

namespace Sys2Proof

/-- A byte of the stream, of a window or of `BUF`: an unsigned integer 0 to 255 (00_scope.md R10). -/
abbrev Byte := BitVec 8

/-- A 16-bit unsigned header field (10_state.md R31). -/
abbrev Half := BitVec 16

end Sys2Proof
end

