-- ==== Sys2Proof/Config.lean ====
section
/-! DEFINITION. Config: what an integrator fixes (the variants, the capacity) and what the spec leaves open (the two serial parameters, the bytes of `BUF` that are unspecified). -/

namespace Sys2Proof

/-- The two variants (00_scope.md R2); the strap numbering STREAM = 0, SERIAL = 1 is `strapBit` (10_state.md R25). -/
inductive Variant
  | stream
  | serial
  deriving DecidableEq, Repr, Inhabited

/-- What the open parameter `SERIAL_LENGTH` may answer (42_serial_variant.md R121). -/
inductive SerialLength
  | ok (a : Nat)
  | notEnoughData
  | badFuncCode
  deriving DecidableEq, Repr, Inhabited

/-- `MAX_ADU(v)` (00_scope.md R7). -/
def Config.maxAdu : Variant → Nat
  | .stream => 260
  | .serial => 256

/-- `CAP` computed from the compiled-in variants: the largest of their `MAX_ADU` (00_scope.md R7). -/
def Config.capOf : List Variant → Nat
  | [] => 0
  | v :: vs => max (Config.maxAdu v) (Config.capOf vs)

/-- `VARIANTS` of the reference configuration (00_scope.md R9). -/
def Config.referenceVariants : List Variant := [.stream, .serial]

/-- The open parameter `SERIAL_LENGTH` (42_serial_variant.md R121, U1): uninterpreted, nothing is known of it (log 5). -/
opaque Config.serialLength : List Byte → SerialLength

/-- The open parameter `SERIAL_CHECK` (42_serial_variant.md R121, U2): uninterpreted (log 5). -/
opaque Config.serialCheck : List Byte → Bool

/-- What the list of written bytes gives at an index it does not list: a free value (log 3). -/
opaque Config.unwrittenByte : Nat → Byte

/-- What `BUF[a]` holds at and past `USED`: "any value" (10_state.md R21, R34, R35, U9), a fresh free value at each index
after each RESET or PROCESS, by the count of those (log 4). -/
opaque Config.staleByte : Nat → Nat → Byte

end Sys2Proof
end

