-- ==== Sys2Proof/Syntax.lean ====
section
/-! DEFINITION. Syntax: one constructor of `Instr` per row of spec/opcode_table.json, and the two encoded forms in which the caller presents one. -/

namespace Sys2Proof

/-- The operations (00_scope.md R8) and the two frame-format rows (30_encoding.md R71). -/
inductive Instr
  /-- `RESET` (R210). -/
  | reset
  /-- `PROCESS chunk` (R135). -/
  | process (chunk : List Byte)
  /-- `LENGTH.STREAM w` (R101). -/
  | lengthStream (window : List Byte)
  /-- `HEADER.STREAM w` (R102). -/
  | headerStream (window : List Byte)
  /-- `VALIDATE.STREAM w` (R103). -/
  | validateStream (window : List Byte)
  /-- `PAYLOAD.STREAM w` (R104). -/
  | payloadStream (window : List Byte)
  /-- `LENGTH.SERIAL w` (R122). -/
  | lengthSerial (window : List Byte)
  /-- `HEADER.SERIAL w` (R123). -/
  | headerSerial (window : List Byte)
  /-- `VALIDATE.SERIAL w` (R124). -/
  | validateSerial (window : List Byte)
  /-- `PAYLOAD.SERIAL w` (R125). -/
  | payloadSerial (window : List Byte)
  /-- `ADU.STREAM.HEADER`: the 56-bit header, its fields pulled out (R60, R61). -/
  | aduStreamHeader (transactionId protocolId length : Half) (unitId : Byte)
  /-- `ADU.SERIAL.HEADER`: the 8-bit header (R62, R63). -/
  | aduSerialHeader (address : Byte)
  deriving DecidableEq, Repr

/-- What the caller presents. A command is the 3-bit `OP` and the operand bytes; the strap supplies the
fourth bit of the decode key (30_encoding.md R66, R69). A frame is the bytes of one header (R71; log 6, log 7). -/
inductive Encoded
  | command (op : BitVec 3) (operand : List Byte)
  | frame (wire : List Byte)
  deriving DecidableEq, Repr

end Sys2Proof
end

