-- ==== Sys2Proof/WellFormed.lean ====
section
/-! DEFINITION. WellFormed: an instruction is well formed FOR AN INSTANCE when its row is one of the variant that the instance is strapped to. Field widths are in the types, so nothing else can be wrong. -/

namespace Sys2Proof

/-- The column "variant" of spec/opcode_table.json; `none` stands for "any". -/
def Instr.rowVariant : Instr → Option Variant
  | .reset => none
  | .process _ => none
  | .lengthStream _ => some .stream
  | .headerStream _ => some .stream
  | .validateStream _ => some .stream
  | .payloadStream _ => some .stream
  | .lengthSerial _ => some .serial
  | .headerSerial _ => some .serial
  | .validateSerial _ => some .serial
  | .payloadSerial _ => some .serial
  | .aduStreamHeader _ _ _ _ => some .stream
  | .aduSerialHeader _ => some .serial

/-- The contract operations are "evaluated for the variant the instance is bound to" (00_scope.md R8). -/
def Instr.wf (v : Variant) (i : Instr) : Bool :=
  match i.rowVariant with
  | none => true
  | some u => decide (u = v)

end Sys2Proof
end

