-- ==== Sys2Proof/Decode.lean ====
section
/-! DEFINITION. Decode: the decoder, total on every key and every operand, rejecting by name; the encoder, written from the same tables; the opcode table's rows; and the reading of a table word. -/

namespace Sys2Proof

/-- The strap bit: STREAM = 0, SERIAL = 1 (10_state.md R25). -/
def strapBit : Variant → BitVec 1
  | .stream => 0#1
  | .serial => 1#1

/-- The 4-bit decode key `VARIANT‖OP`, strap bit first (30_encoding.md R66). -/
def keyOf (v : Variant) (op : BitVec 3) : BitVec 4 := strapBit v ++ op

/-- The strap that a key carries in its bit 3. -/
def keyVariant (key : BitVec 4) : Variant := if key.getLsbD 3 then .serial else .stream

/-- A big-endian 16-bit value from its two bytes (20_memory.md R43). -/
def be16 (hi lo : Byte) : Half := hi ++ lo

/-- The more significant byte of a field, the one at the lower offset (R43). -/
def hiByte (h : Half) : Byte := h.extractLsb' 8 8

/-- The less significant byte of a field (R43). -/
def loByte (h : Half) : Byte := h.extractLsb' 0 8

/-- Why the decoder rejects. -/
inductive DecodeError
  /-- `OP` 110 or 111 (R66, U10). -/
  | reservedCommand (op : BitVec 3)
  /-- Operand bytes on `RESET`, which has none (R210; log 8). -/
  | operandNotAllowed
  /-- Not the header length of the strapped variant (R60, R62; log 7). -/
  | notAFrame
  deriving DecidableEq, Repr

/-- The decoder over the 4-bit key `VARIANT‖OP` (30_encoding.md R66, R71). -/
def decodeKey (key : BitVec 4) (operand : List Byte) : Except DecodeError Instr :=
  match key.toNat with
  | 0b0000 | 0b1000 => if operand.isEmpty then .ok .reset else .error .operandNotAllowed
  | 0b0001 | 0b1001 => .ok (.process operand)
  | 0b0010 => .ok (.lengthStream operand)
  | 0b0011 => .ok (.headerStream operand)
  | 0b0100 => .ok (.validateStream operand)
  | 0b0101 => .ok (.payloadStream operand)
  | 0b1010 => .ok (.lengthSerial operand)
  | 0b1011 => .ok (.headerSerial operand)
  | 0b1100 => .ok (.validateSerial operand)
  | 0b1101 => .ok (.payloadSerial operand)
  | _ => .error (.reservedCommand (key.setWidth 3))

/-- The header bytes of the strapped variant, fields assembled by R61 and R63. -/
def decodeFrame : Variant → List Byte → Except DecodeError Instr
  | .stream, [b0, b1, b2, b3, b4, b5, b6] =>
    .ok (.aduStreamHeader (be16 b0 b1) (be16 b2 b3) (be16 b4 b5) b6)
  | .serial, [b0] => .ok (.aduSerialHeader b0)
  | _, _ => .error .notAFrame

/-- Decoding what the caller presents to an instance strapped to `v`. -/
def decode (v : Variant) : Encoded → Except DecodeError Instr
  | .command op operand => decodeKey (keyOf v op) operand
  | .frame wire => decodeFrame v wire

/-- The encoder, from the command table of R66 and the layouts of R60 and R62. -/
def encode : Instr → Encoded
  | .reset => .command 0b000#3 []
  | .process chunk => .command 0b001#3 chunk
  | .lengthStream w => .command 0b010#3 w
  | .headerStream w => .command 0b011#3 w
  | .validateStream w => .command 0b100#3 w
  | .payloadStream w => .command 0b101#3 w
  | .lengthSerial w => .command 0b010#3 w
  | .headerSerial w => .command 0b011#3 w
  | .validateSerial w => .command 0b100#3 w
  | .payloadSerial w => .command 0b101#3 w
  | .aduStreamHeader t p l u =>
    .frame [hiByte t, loByte t, hiByte p, loByte p, hiByte l, loByte l, u]
  | .aduSerialHeader a => .frame [a]

/-- A command row of spec/opcode_table.json: its mnemonic, its mask and its match over the 4-bit key (R71). -/
structure OpcodeRow where
  mnemonic : String
  mask : BitVec 4
  value : BitVec 4
  deriving DecidableEq, Repr

/-- The ten command rows of spec/opcode_table.json. -/
def opcodeRows : List OpcodeRow := [
  ⟨"RESET", 0x7#4, 0x0#4⟩,
  ⟨"PROCESS", 0x7#4, 0x1#4⟩,
  ⟨"LENGTH.STREAM", 0xF#4, 0x2#4⟩,
  ⟨"HEADER.STREAM", 0xF#4, 0x3#4⟩,
  ⟨"VALIDATE.STREAM", 0xF#4, 0x4#4⟩,
  ⟨"PAYLOAD.STREAM", 0xF#4, 0x5#4⟩,
  ⟨"LENGTH.SERIAL", 0xF#4, 0xA#4⟩,
  ⟨"HEADER.SERIAL", 0xF#4, 0xB#4⟩,
  ⟨"VALIDATE.SERIAL", 0xF#4, 0xC#4⟩,
  ⟨"PAYLOAD.SERIAL", 0xF#4, 0xD#4⟩]

/-- A row matches a key when the key agrees with its fixed bits. -/
def OpcodeRow.fits (r : OpcodeRow) (key : BitVec 4) : Bool := decide (key &&& r.mask = r.value)

/-- The mnemonic of an instruction's row. -/
def Instr.mnemonic : Instr → String
  | .reset => "RESET"
  | .process _ => "PROCESS"
  | .lengthStream _ => "LENGTH.STREAM"
  | .headerStream _ => "HEADER.STREAM"
  | .validateStream _ => "VALIDATE.STREAM"
  | .payloadStream _ => "PAYLOAD.STREAM"
  | .lengthSerial _ => "LENGTH.SERIAL"
  | .headerSerial _ => "HEADER.SERIAL"
  | .validateSerial _ => "VALIDATE.SERIAL"
  | .payloadSerial _ => "PAYLOAD.SERIAL"
  | .aduStreamHeader _ _ _ _ => "ADU.STREAM.HEADER"
  | .aduSerialHeader _ => "ADU.SERIAL.HEADER"

/-- `n` bytes of a word, the first from its lowest eight bits. -/
def bytesFromLow : Nat → Nat → List Byte
  | 0, _ => []
  | n + 1, w => BitVec.ofNat 8 w :: bytesFromLow n (w / 256)

/-- A word of spec/opcode_table.json as what is presented, with the strap it is presented under (log 8).
56 bits: a STREAM header, its bit 55 first on the wire (R60). Otherwise bytes from the low end: a first byte
below 16 is the key `VARIANT‖OP`, its strap bit selecting the instance, and the rest are operand bytes; any other
single byte can only be a SERIAL header. -/
def tableWord (nbits w : Nat) : Variant × Encoded :=
  if nbits = 56 then (.stream, .frame (bytesFromLow 7 w).reverse)
  else if w % 256 < 16 then
    (keyVariant (BitVec.ofNat 4 w),
      .command (BitVec.ofNat 3 w) (bytesFromLow ((nbits + 7) / 8 - 1) (w / 256)))
  else (.serial, .frame (bytesFromLow ((nbits + 7) / 8) w))

/-- The instruction the decoder reads from a table word. -/
def decodeTableWord (nbits w : Nat) : Option Instr :=
  match decode (tableWord nbits w).1 (tableWord nbits w).2 with
  | .ok i => some i
  | .error _ => none

end Sys2Proof
end

