-- ==== Sys2Proof/Machine/State.lean ====
section
/-! DEFINITION. State: the typed errors and records at the interface, why a step can stop, the state of one framer as plain data, and the state right after reset. -/

namespace Sys2Proof.Machine

/-- The four typed errors: ordinary results of an operation (60_exceptions.md R180). -/
inductive Err
  | notEnoughData
  | badLength
  | badErrorCheck
  | badFuncCode
  deriving DecidableEq, Repr

/-- `Ok(v)` or `Err(e)` (00_scope.md R11). -/
inductive Result (α : Type)
  | ok (v : α)
  | err (e : Err)
  deriving DecidableEq, Repr

/-- The Header record of each variant (10_state.md R31, R32). -/
inductive Header
  | stream (transactionId protocolId length : Half) (unitId : Byte)
  | serial (address : Byte)
  deriving DecidableEq, Repr

/-- The Packet: the header by value and the payload's range in `BUF` (10_state.md R29). -/
structure Packet where
  header : Header
  off : Nat
  plen : Nat
  deriving DecidableEq, Repr

/-- The result record of PROCESS (10_state.md R30): on `Ok` the Packet, the leftover index and `consumed`; on an error
the kind and `consumed`. -/
inductive ProcessResult
  | ok (packet : Packet) (ri consumed : Nat)
  | err (e : Err) (consumed : Nat)
  deriving DecidableEq, Repr

/-- The output of a step: what the last operation returned (R30, R33; log 1). `view` is what a read through the
Packet gave (R155). -/
inductive Output
  | none
  | process (r : ProcessResult)
  | length (r : Result Nat)
  | header (r : Result Header)
  | validate (r : Result Unit)
  | payload (r : Result (Nat × Nat))
  | view (bytes : List Byte)
  deriving DecidableEq, Repr

/-- The input of a step: an operation, or the caller's read of the payload through the Packet that the RESET or
PROCESS numbered `epoch` left (R29, R155; log 10). -/
inductive Request
  | op (e : Encoded)
  | view (epoch : Nat)
  deriving DecidableEq, Repr

/-- `BUF`'s specified bytes by index: strictly rising, an unspecified byte not listed (log 3, log 4). -/
abbrev Memory := List Host.Cell

/-- Fatal violations: the operation has no result and the instance no later meaning (60_exceptions.md R190). -/
inductive Fault
  /-- RESET, when `MAX_ADU(VARIANT) > CAP` (R210, U5). Safe: the spec's own fault. -/
  | capacityTooSmall
  /-- PROCESS step S5, when the length is below what was buffered before (R140, U7). Safe: the spec's own fault. -/
  | negativeLeftoverIndex
  /-- PACK into too few bytes (R171, U4). Safe: the spec's own fault. -/
  | destinationTooSmall
  /-- UNPACK from too few bytes (R172, U4). Safe: the spec's own fault. -/
  | sourceTooSmall
  /-- A buffer primitive at an index of no byte of `BUF` or of the view, which "cannot arise from the rules" (R41);
  raised by PROCESS and by the view only in states no run reaches. Safe: the model stops (log 11). -/
  | bufferIndexOutOfRange
  deriving DecidableEq, Repr

/-- What the model gives no meaning. -/
inductive Refusal
  /-- An instruction with no meaning yet; raised by exec only. Safe. -/
  | notModelled (mnemonic : String)
  /-- A reserved command, raised by step (30_encoding.md R66, U10). Safe: the spec refuses it. -/
  | reservedCommand (op : BitVec 3)
  /-- Operand bytes presented with RESET, raised by step (log 8). Safe: the model stops. -/
  | operandNotAllowed
  /-- Bytes that are no header of the strapped variant, raised by step (log 7). Safe: the model stops. -/
  | notAFrame
  /-- A read through a Packet that a later RESET or PROCESS ended, raised by step
  (70_reset_and_hazards.md R221, U6). Safe: the spec refuses it. -/
  | stalePacket
  deriving DecidableEq, Repr

/-- One framer (10_state.md R20) with its strap and capacity (R25, R9), the outstanding Packet (R29), and the
model's own input, output and operation count (log 1, log 10). -/
structure State where
  /-- `BUF` (R21). -/
  buf : Memory
  /-- `USED`, 0 to `CAP` (R22). -/
  used : Nat
  /-- `COMPLETE` (R23). -/
  complete : Bool
  /-- `VARIANT`, never written (R25). -/
  variant : Variant
  /-- `CAP`, never written (R7, R9). -/
  cap : Nat
  /-- The outstanding Packet, if it is still valid (R29). -/
  packet : Option Packet
  /-- The model's own: how many RESET and PROCESS operations have started (log 4, log 10). -/
  epoch : Nat
  /-- The model's own: the result of the last operation (log 1). -/
  out : Output
  /-- The model's own: what the caller has still to issue, oldest first (log 1, log 9). -/
  script : List Request
  deriving DecidableEq, Repr

/-- After RESET, and at creation (10_state.md R35), in the reference configuration with the strap at STREAM (log 2). -/
def State.reset : State where
  buf := []
  used := 0
  complete := false
  variant := .stream
  cap := Config.capOf Config.referenceVariants
  packet := none
  epoch := 0
  out := .none
  script := []

end Sys2Proof.Machine
end

