-- ==== Sys2Proof/Machine/Ops.lean ====
section
/-! DEFINITION. Ops: the named operations over `BUF` and over the framer's registers, the end of an operation in an error, and the decode errors as refusals. -/

namespace Sys2Proof.Machine

/-! ## `BUF` as a memory -/

/-- The byte listed at an index, if one was written. -/
def Memory.get : Memory → Nat → Option Byte
  | [], _ => none
  | (b, v) :: m, a => if a = b then some v else Memory.get m a

/-- The byte of the list at an index; one that is not listed is a free value (log 3). -/
def Memory.read (m : Memory) (a : Nat) : Byte := (Memory.get m a).getD (Config.unwrittenByte a)

/-- One byte replaced, the list kept in order. -/
def Memory.set : Memory → Nat → Byte → Memory
  | [], a, v => [(a, v)]
  | (b, x) :: m, a, v =>
    if a < b then (a, v) :: (b, x) :: m
    else if a = b then (a, v) :: m
    else (b, x) :: Memory.set m a v

/-- The bytes below an index: what truncating the buffer there leaves specified. -/
def Memory.below (n : Nat) (m : Memory) : Memory := m.filter (fun p => decide (p.1 < n))

/-- The canonical form: indices strictly rising, each below the capacity. -/
abbrev Memory.wf (cap : Nat) (m : Memory) : Prop :=
  m.Pairwise (fun p q => p.1 < q.1) ∧ ∀ p ∈ m, p.1 < cap

/-- The bytes at `addr` to `addr + n - 1`, in that order. -/
def Memory.readBytes (m : Memory) (addr : Nat) : Nat → List Byte
  | 0 => []
  | n + 1 => Memory.read m addr :: Memory.readBytes m (addr + 1) n

/-- `MemRead(addr, n)`, for `addr + n <= CAP` (20_memory.md R41). -/
def memRead (cap : Nat) (m : Memory) (addr n : Nat) : Except Fault (List Byte) :=
  if addr + n ≤ cap then .ok (Memory.readBytes m addr n) else .error .bufferIndexOutOfRange

/-- `MemWrite(addr, 1, v)`, for `addr < CAP` (20_memory.md R41). -/
def memWrite (cap : Nat) (m : Memory) (addr : Nat) (v : Byte) : Except Fault Memory :=
  if addr < cap then .ok (Memory.set m addr v) else .error .bufferIndexOutOfRange

/-- The byte copy of step S2: one `MemWrite` a byte, indices rising (43_framer.md R137, R155). -/
def memWriteBytes (cap : Nat) (m : Memory) (addr : Nat) : List Byte → Except Fault Memory
  | [] => .ok m
  | b :: bs =>
    match memWrite cap m addr b with
    | .ok m' => memWriteBytes cap m' (addr + 1) bs
    | .error f => .error f

/-- `BUF[a]` as the spec gives it: a byte of the buffered window, and at or past `USED` any value (10_state.md R21, R34;
log 4). -/
def State.bufByte (s : State) (a : Nat) : Byte := if a < s.used then Memory.read s.buf a else Config.staleByte s.epoch a

/-- The buffered window `BUF[0..USED)` (00_scope.md R11). -/
def State.window (s : State) : List Byte := Memory.readBytes s.buf 0 s.used

/-! ## The registers -/

/-- The start of a RESET or PROCESS: any outstanding Packet dies (10_state.md R29, C5). -/
def State.startOperation (s : State) : State := { s with packet := none, epoch := s.epoch + 1 }

/-- The end of an operation: its result is handed to the caller. -/
def State.returns (s : State) (o : Output) : State := { s with out := o }

/-- Emptying the buffer: a write of `USED` and of `COMPLETE` (10_state.md R136, R141, R210). Every byte of `BUF` is then
unspecified, so none is kept (R21, R35; log 4). -/
def State.empty (s : State) : State := { s with buf := [], used := 0, complete := false }

/-! ## Ending PROCESS in an error (60_exceptions.md R187)

Nothing is saved and there is nothing to return from (R188): the state is kept as step S2 left it, or EMPTY. -/

/-- What an error does with the buffered bytes. -/
inductive Disposal
  | retain
  | discard
  deriving DecidableEq, Repr

/-- Error entry: retain or discard, and report the kind and `consumed` (R187, R142). -/
def State.endInError (s : State) (d : Disposal) (e : Err) (consumed : Nat) : State :=
  match d with
  | .retain => s.returns (.process (.err e consumed))
  | .discard => s.empty.returns (.process (.err e consumed))

/-- The refusal for a word the decoder rejects. -/
def refusalOf : DecodeError → Refusal
  | .reservedCommand op => .reservedCommand op
  | .operandNotAllowed => .operandNotAllowed
  | .notAFrame => .notAFrame

end Sys2Proof.Machine
end

