-- ==== Sys2Proof/Machine/Operands.lean ====
section
/-! DEFINITION. Operands: the layout constants of each variant, the fields of a window, the chunk and its leftover. -/

namespace Sys2Proof.Machine

/-- `HDR_SIZE(v)` (00_scope.md R7). -/
def hdrSize : Variant → Nat
  | .stream => 7
  | .serial => 1

/-- `TRAILER(v)` (00_scope.md R7). -/
def trailer : Variant → Nat
  | .stream => 0
  | .serial => 2

/-- `LEN_BIAS`: total ADU length = declared length + 6 (00_scope.md R7). -/
def lenBias : Nat := 6

/-- `LEN_MIN`: fewest bytes from which `LENGTH.STREAM` computes (41_stream_variant.md R100). -/
def lenMin : Nat := 6

/-- `be16(w, i) = w[i] * 256 + w[i+1]` (00_scope.md R10), when both bytes are in the window. -/
def be16At (w : List Byte) (i : Nat) : Option Half :=
  match w[i]?, w[i + 1]? with
  | some hi, some lo => some (be16 hi lo)
  | _, _ => none

/-- The declared length L: the 16-bit field at offsets 4 and 5 (30_encoding.md R61). -/
def declaredLength (w : List Byte) : Option Half := be16At w 4

/-- The bytes of the chunk that step S2 takes when `room` bytes are free: the first `min(room, n)` (43_framer.md R137). -/
def taken (room : Nat) (chunk : List Byte) : List Byte := chunk.take (min room chunk.length)

/-- The leftover `chunk[ri..n)` (43_framer.md R140). -/
def leftover (chunk : List Byte) (ri : Nat) : List Byte := chunk.drop ri

end Sys2Proof.Machine
end

