-- ==== Sys2Proof/Machine/Flags.lean ====
section
/-! DEFINITION. Flags: the one flag `COMPLETE` (10_state.md R23), the status codes of a result (30_encoding.md R67), and the three states read off the registers (R28). -/

namespace Sys2Proof.Machine

/-- S1: "If the complete-flag is set, clear the buffer and the flag" (43_framer.md R136). -/
def State.supersede (s : State) : State := if s.complete then s.empty else s

/-- S5: the flag is set and `USED` truncated to the ADU's length (43_framer.md R140). The bytes from there on are
unspecified, so none of them is kept (10_state.md R21, R34; log 4). -/
def State.claim (s : State) (a : Nat) : State := { s with buf := Memory.below a s.buf, complete := true, used := a }

/-- The error codes 1 to 4; code 0 is `Ok` and 5 to 7 are never produced (30_encoding.md R67). -/
def Err.code : Err → BitVec 3
  | .notEnoughData => 1#3
  | .badLength => 2#3
  | .badErrorCheck => 3#3
  | .badFuncCode => 4#3

/-- The status code of a result (R67). -/
def Result.status {α : Type} : Result α → BitVec 3
  | .ok _ => 0#3
  | .err e => e.code

/-- The `status` field of the result record of PROCESS (10_state.md R30). -/
def ProcessResult.status : ProcessResult → BitVec 3
  | .ok _ _ _ => 0#3
  | .err e _ => e.code

/-- The `consumed` field of the result record of PROCESS (10_state.md R30). -/
def ProcessResult.consumed : ProcessResult → Nat
  | .ok _ _ consumed => consumed
  | .err _ consumed => consumed

/-- A destructive error: any but `NotEnoughData` (00_scope.md R14). -/
def Err.destructive : Err → Bool
  | .notEnoughData => false
  | .badLength => true
  | .badErrorCheck => true
  | .badFuncCode => true

/-- The three states of the protocol-contract state machine (10_state.md R28). -/
inductive Phase
  | empty
  | partialMessage
  | holding
  deriving DecidableEq, Repr

/-- The state read off the registers (R28). -/
def State.phase (s : State) : Phase :=
  if s.complete then .holding else if s.used = 0 then .empty else .partialMessage

end Sys2Proof.Machine
end

