-- ==== Sys2Proof/Machine/Contract.lean ====
section
/-! DEFINITION. Contract: the Protocol Contract as a value (40_contract.md R80), and its two instances, STREAM and SERIAL. The four operations are pure functions of the window (R81). -/

namespace Sys2Proof.Machine

/-- "a maximum-ADU-length constant, a Header type, and four pure operations" (R80). -/
structure Contract where
  maxAdu : Nat
  length : List Byte → Result Nat
  header : List Byte → Result Header
  validate : List Byte → Result Unit
  payload : List Byte → Result (Nat × Nat)

/-- The bound a length rule is held to: `BadLength` above the variant's maximum (R82). -/
def boundedLength (v : Variant) (a : Nat) : Result Nat :=
  if a > Config.maxAdu v then .err .badLength else .ok a

/-- `PAYLOAD` from `VALIDATE`: its error, or the range after the header less the trailer (R85). -/
def payloadFrom (v : Variant) (validated : Result Unit) (w : List Byte) : Result (Nat × Nat) :=
  match validated with
  | .err e => .err e
  | .ok () => .ok (hdrSize v, w.length - hdrSize v - trailer v)

/-- `LENGTH.STREAM` (41_stream_variant.md R101). -/
def streamLength (w : List Byte) : Result Nat :=
  if w.length < lenMin then .err .notEnoughData
  else
    match declaredLength w with
    | none => .err .notEnoughData
    | some l => boundedLength .stream (l.toNat + lenBias)

/-- `HEADER.STREAM` (41_stream_variant.md R102). -/
def streamHeader (w : List Byte) : Result Header :=
  if w.length < hdrSize .stream then .err .notEnoughData
  else
    match be16At w 0, be16At w 2, be16At w 4, w[6]? with
    | some t, some p, some l, some u => .ok (.stream t p l u)
    | _, _, _, _ => .err .notEnoughData

/-- `VALIDATE.STREAM` (41_stream_variant.md R103). -/
def streamValidate (w : List Byte) : Result Unit :=
  if w.length < hdrSize .stream then .err .notEnoughData
  else
    match declaredLength w with
    | none => .err .notEnoughData
    | some l => if w.length < l.toNat + lenBias then .err .notEnoughData else .ok ()

/-- `PAYLOAD.STREAM` (41_stream_variant.md R104). -/
def streamPayload (w : List Byte) : Result (Nat × Nat) := payloadFrom .stream (streamValidate w) w

/-- `LENGTH.SERIAL` over the parameter `SERIAL_LENGTH`, the bound applied outside it (42_serial_variant.md R122). -/
def serialLengthOp (serialLength : List Byte → SerialLength) (w : List Byte) : Result Nat :=
  match serialLength w with
  | .notEnoughData => .err .notEnoughData
  | .badFuncCode => .err .badFuncCode
  | .ok a => boundedLength .serial a

/-- `HEADER.SERIAL` (42_serial_variant.md R123). -/
def serialHeader (w : List Byte) : Result Header :=
  match w with
  | [] => .err .notEnoughData
  | address :: _ => .ok (.serial address)

/-- `VALIDATE.SERIAL` over the parameter `SERIAL_CHECK` (42_serial_variant.md R124). -/
def serialValidate (serialCheck : List Byte → Bool) (w : List Byte) : Result Unit :=
  if w.length < hdrSize .serial + trailer .serial then .err .notEnoughData
  else if serialCheck w then .ok () else .err .badErrorCheck

/-- `PAYLOAD.SERIAL` (42_serial_variant.md R125). -/
def serialPayload (serialCheck : List Byte → Bool) (w : List Byte) : Result (Nat × Nat) :=
  payloadFrom .serial (serialValidate serialCheck w) w

/-- The STREAM contract (R100 to R104). -/
def streamContract : Contract where
  maxAdu := Config.maxAdu .stream
  length := streamLength
  header := streamHeader
  validate := streamValidate
  payload := streamPayload

/-- The SERIAL contract over its two open parameters (R121 to R125). -/
def serialContract (serialLength : List Byte → SerialLength) (serialCheck : List Byte → Bool) : Contract where
  maxAdu := Config.maxAdu .serial
  length := serialLengthOp serialLength
  header := serialHeader
  validate := serialValidate serialCheck
  payload := serialPayload serialCheck

/-- The contract that an instance strapped to `v` queries (40_contract.md R87). -/
def contractOf : Variant → Contract
  | .stream => streamContract
  | .serial => serialContract Config.serialLength Config.serialCheck

end Sys2Proof.Machine
end

