-- ==== Sys2Proof/Machine/Framer.lean ====
section
/-! DEFINITION. Framer: RESET and PROCESS, the two operations that act on the framer's state. -/

namespace Sys2Proof.Machine

/-- S2: append what fits and raise `USED` by as much (43_framer.md R137). -/
def State.append (s : State) (chunk : List Byte) : Except Fault State :=
  match memWriteBytes s.cap s.buf s.used (taken (s.cap - s.used) chunk) with
  | .error f => .error f
  | .ok m => .ok { s with buf := m, used := s.used + (taken (s.cap - s.used) chunk).length }

/-- S6: build the Packet through the contract from the window `BUF[0..a)`, `HEADER` first (43_framer.md R141). -/
def build (c : Contract) (ri : Nat) (s : State) : Host.Outcome State Fault Refusal :=
  match memRead s.cap s.buf 0 s.used with
  | .error f => .fault f
  | .ok w =>
    match c.header w with
    | .err e => .next (s.endInError .discard e ri)
    | .ok h =>
      match c.payload w with
      | .err e => .next (s.endInError .discard e ri)
      | .ok (off, plen) =>
        .next { s with packet := some ⟨h, off, plen⟩, out := .process (.ok ⟨h, off, plen⟩ ri ri) }

/-- S3 to S5 on what step S2 left: the length query, the completeness test, the claim (43_framer.md R138 to R140).
`before` is `USED` before the append, `k` the bytes appended. -/
def query (c : Contract) (before k : Nat) (s : State) : Host.Outcome State Fault Refusal :=
  match memRead s.cap s.buf 0 s.used with
  | .error f => .fault f
  | .ok w =>
    match c.length w with
    | .err .notEnoughData => .next (s.endInError .retain .notEnoughData k)
    | .err e => .next (s.endInError .discard e k)
    | .ok a =>
      if s.used < a then .next (s.endInError .retain .notEnoughData k)
      else if a < before then .fault .negativeLeftoverIndex
      else build c (a - before) (s.claim a)

/-- `PROCESS chunk` through a contract, steps S1 to S6 (43_framer.md R135). `before` is sampled after S1 (C3). -/
def processWith (c : Contract) (chunk : List Byte) (s : State) : Host.Outcome State Fault Refusal :=
  let s1 := s.startOperation.supersede
  match s1.append chunk with
  | .error f => .fault f
  | .ok s2 => query c s1.used (s2.used - s1.used) s2

/-- `PROCESS`: the contract queried is that of the strapped variant (R135, R87). -/
def execProcess (chunk : List Byte) (s : State) : Host.Outcome State Fault Refusal :=
  processWith (contractOf s.variant) chunk s

/-- `RESET`: the capacity check, then EMPTY, no result (70_reset_and_hazards.md R210, 30_encoding.md R68). -/
def execReset (s : State) : Host.Outcome State Fault Refusal :=
  if (contractOf s.variant).maxAdu > s.cap then .fault .capacityTooSmall
  else .next (s.startOperation.empty.returns .none)

end Sys2Proof.Machine
end

