-- ==== Sys2Proof/Machine/Caller.lean ====
section
/-! DEFINITION. Caller: what the caller does at the block's boundary: the read through the Packet view, and the pseudo-operations FEED1 and DRAIN, which expand into PROCESS (30_encoding.md R70). -/

namespace Sys2Proof.Machine

/-- The read-only Packet view: the payload bytes `BUF[off .. off + plen)` while the Packet that operation number
`epoch` returned is valid, refused afterwards (10_state.md R29, 70_reset_and_hazards.md R221). It reaches
`BUF[0..USED)` only (R34). -/
def viewPacket (epoch : Nat) (s : State) : Host.Outcome State Fault Refusal :=
  match s.packet with
  | none => .refused .stalePacket
  | some p =>
    if epoch = s.epoch then
      match memRead (min s.used s.cap) s.buf p.off p.plen with
      | .error f => .fault f
      | .ok bytes => .next (s.returns (.view bytes))
    else .refused .stalePacket

/-- The request that issues `PROCESS chunk`. -/
def processRequest (chunk : List Byte) : Request := .op (encode (.process chunk))

/-- `FEED1 s`: one PROCESS of one byte for each byte, in order (R70). -/
def feed1 (bytes : List Byte) : List Request := bytes.map (fun b => processRequest [b])

/-- The loop of `DRAIN`, at most `fuel` operations, with the state after each (R70). That it ends when the fuel does is the
model's choice (log 18). -/
def drainLoop (c : Contract) : Nat → List Byte → State → Host.Outcome (List State) Fault Refusal
  | 0, _, _ => .next []
  | fuel + 1, bytes, s =>
    match processWith c bytes s with
    | .fault f => .fault f
    | .refused r => .refused r
    | .next t =>
      match t.out with
      | .process (.ok _ ri _) =>
        if (leftover bytes ri).isEmpty then .next [t]
        else
          match drainLoop c fuel (leftover bytes ri) t with
          | .fault f => .fault f
          | .refused r => .refused r
          | .next ts => .next (t :: ts)
      | _ => .next [t]

/-- `DRAIN s`: PROCESS, then PROCESS of the leftover while the result is `Ok` and the leftover is not empty (R70).
Through a conforming contract it ends after at most `len(s)` operations, or one when s is empty (R143), and the fuel
suffices. Through a contract that is not conforming and answers `Ok` with `ri` = 0 for ever the spec gives it no end: that the
model cuts it off after `len(s) + 1` operations is a DESIGN CHOICE (log 18). -/
def drain (c : Contract) (bytes : List Byte) (s : State) : Host.Outcome (List State) Fault Refusal :=
  drainLoop c (bytes.length + 1) bytes s

end Sys2Proof.Machine
end

