-- ==== Sys2Proof/Machine/SerialOps.lean ====
section
/-! DEFINITION. SerialOps: the SERIAL contract operations called on their own, over the open parameters, and the SERIAL header extractor. The framer's state is neither read nor changed (40_contract.md R81). -/

namespace Sys2Proof.Machine

/-- `LENGTH.SERIAL` (42_serial_variant.md R122). -/
def execLengthSerial (w : List Byte) (s : State) : Host.Outcome State Fault Refusal :=
  .next (s.returns (.length (serialLengthOp Config.serialLength w)))

/-- `HEADER.SERIAL` (42_serial_variant.md R123). -/
def execHeaderSerial (w : List Byte) (s : State) : Host.Outcome State Fault Refusal :=
  .next (s.returns (.header (serialHeader w)))

/-- `VALIDATE.SERIAL` (42_serial_variant.md R124). -/
def execValidateSerial (w : List Byte) (s : State) : Host.Outcome State Fault Refusal :=
  .next (s.returns (.validate (serialValidate Config.serialCheck w)))

/-- `PAYLOAD.SERIAL` (42_serial_variant.md R125). -/
def execPayloadSerial (w : List Byte) (s : State) : Host.Outcome State Fault Refusal :=
  .next (s.returns (.payload (serialPayload Config.serialCheck w)))

/-- `ADU.SERIAL.HEADER`: the extracted field as a Header record (30_encoding.md R63, R71; log 6). -/
def execAduSerialHeader (a : Byte) (s : State) : Host.Outcome State Fault Refusal :=
  .next (s.returns (.header (.ok (.serial a))))

end Sys2Proof.Machine
end

