-- ==== Sys2Proof/Machine/StreamOps.lean ====
section
/-! DEFINITION. StreamOps: the STREAM contract operations called on their own and the STREAM header extractor. The framer's state is neither read nor changed (40_contract.md R81). -/

namespace Sys2Proof.Machine

/-- `LENGTH.STREAM` (41_stream_variant.md R101). -/
def execLengthStream (w : List Byte) (s : State) : Host.Outcome State Fault Refusal :=
  .next (s.returns (.length (streamLength w)))

/-- `HEADER.STREAM` (41_stream_variant.md R102). -/
def execHeaderStream (w : List Byte) (s : State) : Host.Outcome State Fault Refusal :=
  .next (s.returns (.header (streamHeader w)))

/-- `VALIDATE.STREAM` (41_stream_variant.md R103). -/
def execValidateStream (w : List Byte) (s : State) : Host.Outcome State Fault Refusal :=
  .next (s.returns (.validate (streamValidate w)))

/-- `PAYLOAD.STREAM` (41_stream_variant.md R104). -/
def execPayloadStream (w : List Byte) (s : State) : Host.Outcome State Fault Refusal :=
  .next (s.returns (.payload (streamPayload w)))

/-- `ADU.STREAM.HEADER`: the extracted fields as a Header record (30_encoding.md R61, R71; log 6). -/
def execAduStreamHeader (t p l : Half) (u : Byte) (s : State) : Host.Outcome State Fault Refusal :=
  .next (s.returns (.header (.ok (.stream t p l u))))

end Sys2Proof.Machine
end

