-- ==== Sys2Proof/Machine/Dispatch.lean ====
section
/-! DEFINITION. Dispatch: one arm per instruction. -/

namespace Sys2Proof.Machine

def exec (i : Instr) (s : State) : Host.Outcome State Fault Refusal :=
  match i with
  | .reset => Sys2Proof.Machine.execReset s
  | .process chunk => Sys2Proof.Machine.execProcess chunk s
  | .lengthStream w => Sys2Proof.Machine.execLengthStream w s
  | .headerStream w => Sys2Proof.Machine.execHeaderStream w s
  | .validateStream w => Sys2Proof.Machine.execValidateStream w s
  | .payloadStream w => Sys2Proof.Machine.execPayloadStream w s
  | .lengthSerial w => Sys2Proof.Machine.execLengthSerial w s
  | .headerSerial w => Sys2Proof.Machine.execHeaderSerial w s
  | .validateSerial w => Sys2Proof.Machine.execValidateSerial w s
  | .payloadSerial w => Sys2Proof.Machine.execPayloadSerial w s
  | .aduStreamHeader t p l u => Sys2Proof.Machine.execAduStreamHeader t p l u s
  | .aduSerialHeader a => Sys2Proof.Machine.execAduSerialHeader a s

end Sys2Proof.Machine
end

