-- ==== Sys2Proof/Machine/Step.lean ====
section
/-! DEFINITION. Step: the caller's next request, decoded under the strap and run; and the placing of a word as that request. -/

namespace Sys2Proof.Machine

/-- One operation of the script (00_scope.md R15, 20_memory.md R46). With nothing to do the block holds its state (R201). -/
def step (s : State) : Host.Outcome State Fault Refusal :=
  match s.script with
  | [] => .next s
  | .view epoch :: rest => viewPacket epoch { s with script := rest }
  | .op e :: rest =>
    match decode s.variant e with
    | .ok i => exec i { s with script := rest }
    | .error d => .refused (refusalOf d)

/-- The table word as the caller's next request, under the strap it selects (log 8, log 9). -/
def State.withFetchWord (s : State) (nbits w : Nat) : State :=
  { s with variant := (tableWord nbits w).1, script := .op (tableWord nbits w).2 :: s.script }

end Sys2Proof.Machine
end

