-- ==== Sys2Proof/Machine/BitPack.lean ====
section
/-! DEFINITION. BitPack: the bit-pack codec, an external interface the spec transcribes (44_bitpack_external.md); it has no opcode row and shares no state with the framer (R174; log 15). -/

namespace Sys2Proof.Machine

/-- `BYTES_NEEDED n` (R170). -/
def bytesNeeded (n : Nat) : Nat := (n + 7) / 8

/-- The loop of `PACK` over the coils from index `i`: a true coil adds its bit (R171). -/
def setCoils : List Bool → Nat → List Byte → List Byte
  | [], _, out => out
  | c :: cs, i, out =>
    setCoils cs (i + 1)
      (if c then out.modify (i / 8) (fun b => b + BitVec.ofNat 8 (2 ^ (i % 8))) else out)

/-- `PACK coils, out`: every used byte is rewritten whole, the bytes beyond are not written (R171). -/
def pack (coils : List Bool) (out : List Byte) : Except Fault (List Byte) :=
  if out.length < bytesNeeded coils.length then .error .destinationTooSmall
  else
    .ok (setCoils coils 0
      (List.replicate (bytesNeeded coils.length) 0#8 ++ out.drop (bytesNeeded coils.length)))

/-- The coil at position `i` of packed bytes (R172). -/
def coilAt (bytes : List Byte) (i : Nat) : Bool :=
  match bytes[i / 8]? with
  | some b => decide (b.toNat / 2 ^ (i % 8) % 2 = 1)
  | none => false

/-- `UNPACK bytes` into `n` booleans (R172). -/
def unpack (bytes : List Byte) (n : Nat) : Except Fault (List Bool) :=
  if bytes.length < bytesNeeded n then .error .sourceTooSmall
  else .ok ((List.range n).map (coilAt bytes))

end Sys2Proof.Machine
end

