-- ==== Sys2Proof/Safety.lean ====
section
/-! DEFINITION. Safety: what a conforming contract is, what holds of a framer after every operation, and the words in which statements speak of one PROCESS. -/

namespace Sys2Proof.Machine

/-- A conforming contract: conditions W1 to W6 (40_contract.md R88). -/
structure Contract.Conforming (c : Contract) (cap : Nat) : Prop where
  /-- W1. -/
  fits : 1 ≤ c.maxAdu ∧ c.maxAdu ≤ cap
  /-- W2. -/
  bounded : ∀ w a, c.length w = .ok a → 1 ≤ a ∧ a ≤ c.maxAdu
  /-- W3, prefix stability. -/
  stable : ∀ w a x, c.length w = .ok a → c.length (w ++ x) = .ok a
  /-- W4, causality. -/
  causal : ∀ w a m, c.length w = .ok a → a ≤ m → m ≤ w.length → c.length (w.take m) = .ok a
  /-- W5, decision by the maximum. -/
  decided : ∀ w, c.maxAdu ≤ w.length → c.length w ≠ .err .notEnoughData
  /-- W6. -/
  undecidedEmpty : c.length [] = .err .notEnoughData

/-- What the integrator's `SERIAL_LENGTH` owes (42_serial_variant.md R126, its W2 lower bound at 1). -/
structure SerialLengthObligations (serialLength : List Byte → SerialLength) : Prop where
  lower : ∀ w a, serialLength w = .ok a → 1 ≤ a
  stable : ∀ w a x, serialLength w = .ok a → a ≤ 256 → serialLength (w ++ x) = .ok a
  causal : ∀ w a m, serialLength w = .ok a → a ≤ m → m ≤ w.length → serialLength (w.take m) = .ok a
  decided : ∀ w, 256 ≤ w.length → serialLength w ≠ .notEnoughData
  undecidedEmpty : serialLength [] = .notEnoughData

/-- The second bound that R126 names, "to make `PAYLOAD.SERIAL` meaningful": no ADU is shorter than its address and check
value. -/
def SerialLengthMeaningful (serialLength : List Byte → SerialLength) : Prop :=
  ∀ w a, serialLength w = .ok a → 3 ≤ a

/-- I3's condition: the buffered window is not yet a whole ADU (10_state.md R27). -/
def State.Unfinished (c : Contract) (s : State) : Prop :=
  c.length s.window = .err .notEnoughData ∨ ∃ a, c.length s.window = .ok a ∧ s.used < a

/-- I2's condition: the buffered window is exactly one complete, validated ADU (10_state.md R27). -/
def State.HoldsAdu (c : Contract) (s : State) : Prop :=
  c.length s.window = .ok s.used ∧ (∃ h, c.header s.window = .ok h) ∧ c.validate s.window = .ok ()

/-- A state from which PROCESS through `c` cannot fault: I1 and I3 (10_state.md R27). -/
structure State.Steady (c : Contract) (s : State) : Prop where
  inBounds : s.used ≤ s.cap
  unfinished : s.complete = false → s.Unfinished c

/-- What holds after RESET and after every operation (10_state.md R27, R29, R21). Where the spec's invariant needs a
conforming contract, so does this one: for SERIAL that is a hypothesis on the open parameter (R126). -/
structure State.Inv (s : State) : Prop where
  /-- `BUF` is in its canonical form, inside the buffer space (R40). -/
  canonical : Memory.wf s.cap s.buf
  /-- Every byte of the buffered window was written by some S2 (R42). -/
  written : ∀ a, a < s.used → (Memory.get s.buf a).isSome
  /-- No byte at or past `USED` is specified (R21, R34). -/
  nothingStale : ∀ p ∈ s.buf, p.1 < s.used
  /-- I1. -/
  inBounds : s.used ≤ s.cap
  /-- I2. -/
  holds : (contractOf s.variant).Conforming s.cap → s.complete = true → s.HoldsAdu (contractOf s.variant)
  /-- I3. -/
  unfinished : (contractOf s.variant).Conforming s.cap → s.complete = false → s.Unfinished (contractOf s.variant)
  /-- I4. -/
  nonempty : (contractOf s.variant).Conforming s.cap → s.complete = true → 1 ≤ s.used
  /-- A Packet is outstanding exactly while a message is held (R23, R29). -/
  packetHeld : s.packet.isSome = s.complete
  /-- The Packet is what the contract makes of the buffered window, and its payload lies inside it (R29, R30). -/
  packetTrue : ∀ p, s.packet = some p →
    (contractOf s.variant).header s.window = .ok p.header ∧
    (contractOf s.variant).payload s.window = .ok (p.off, p.plen) ∧ p.off + p.plen ≤ s.used

/-! ## One PROCESS, in words -/

/-- `before`: `USED` after step S1 (10_state.md R26). -/
def State.before (s : State) : Nat := if s.complete then 0 else s.used

/-- The bytes buffered after step S1. -/
def State.kept (s : State) : List Byte := if s.complete then [] else s.window

/-- The buffered window after step S2 of `PROCESS chunk` (43_framer.md R137): what was kept, then the chunk, up to `CAP`. -/
def State.gathered (s : State) (chunk : List Byte) : List Byte := (s.kept ++ chunk).take s.cap

/-- `k`: how many bytes step S2 of `PROCESS chunk` appends (43_framer.md R137). -/
def State.room (s : State) (chunk : List Byte) : Nat := min (s.cap - s.before) chunk.length

/-- EMPTY (10_state.md R28). -/
def State.IsEmpty (s : State) : Prop := s.complete = false ∧ s.used = 0

/-- A STREAM ADU whose declared length is L, 1 to 254 (30_encoding.md R60, R65). -/
def IsStreamAdu (x : List Byte) : Prop :=
  ∃ l : Half, declaredLength x = some l ∧ 1 ≤ l.toNat ∧ l.toNat ≤ 254 ∧ x.length = l.toNat + 6

/-- A whole ADU of a contract: measured rightly, and accepted by `HEADER` and `PAYLOAD` (43_framer.md R153). -/
def Contract.Accepts (c : Contract) (x : List Byte) : Prop :=
  c.length x = .ok x.length ∧ (∃ h, c.header x = .ok h) ∧ (∃ r, c.payload x = .ok r)

/-- The same result for a chunk with `n` more bytes in front: `ri` and `consumed` greater by `n` (43_framer.md R152). -/
def ProcessResult.later (n : Nat) : ProcessResult → ProcessResult
  | .ok p ri consumed => .ok p (ri + n) (consumed + n)
  | .err e consumed => .err e (consumed + n)

/-- Two framers that differ at most in what their lists hold at and past `USED` (10_state.md R21, R34). -/
structure State.Alike (s t : State) : Prop where
  registers : { s with buf := t.buf } = t
  window : s.window = t.window

/-- The result record that PROCESS returns for a whole ADU taken from EMPTY (43_framer.md R153). -/
def Contract.resultFor (c : Contract) (x : List Byte) : Option ProcessResult :=
  match c.header x, c.payload x with
  | .ok h, .ok (off, plen) => some (.ok ⟨h, off, plen⟩ x.length x.length)
  | _, _ => none

/-- The result record in the output, if the last operation was PROCESS. -/
def State.processResult (s : State) : Option ProcessResult :=
  match s.out with
  | .process r => some r
  | _ => none

end Sys2Proof.Machine
end

