-- ==== Sys2Proof/Certificates/Slice0/Obligations.lean ====
section
/-! DEFINITION. Obligations: the statements about the stream framer, by the spec's rules. `gathered`, `before`, `room` and the other words of Sys2Proof/Safety.lean speak of one PROCESS. -/

open Sys2Proof Sys2Proof.Machine

/-! ## Encoding -/

/-- R66 (the spec's decision D2, log 17), R71: on an instance strapped to `v`, decoding what encodes a well-formed instruction gives it back, with
every operand. -/
def Obligations.DecodeOfEncode : Prop :=
  ∀ (v : Variant) (i : Instr), i.wf v = true → decode v (encode i) = .ok i

/-- R66 (the spec's decision D2, log 17), R71: each presented word has one meaning: what decodes is what its instruction encodes to, and the
instruction is of the strapped variant. That RESET decodes with no operand bytes only is the model's choice (log 8), and so is
it that a frame has the header size of the variant only (log 7). -/
def Obligations.EncodeOfDecode : Prop :=
  ∀ (v : Variant) (e : Encoded) (i : Instr), decode v e = .ok i → encode i = e ∧ i.wf v = true

/-- R66 (the spec's decision D2, log 17): the command table, for either strap; commands 110 and 111 are refused, with no state and no result. -/
def Obligations.CommandWordSelectsTheOperation : Prop :=
  ∀ w : List Byte,
    (∀ v, decode v (.command 0b000#3 []) = .ok .reset) ∧
    (∀ v, decode v (.command 0b001#3 w) = .ok (.process w)) ∧
    decode .stream (.command 0b010#3 w) = .ok (.lengthStream w) ∧
    decode .stream (.command 0b011#3 w) = .ok (.headerStream w) ∧
    decode .stream (.command 0b100#3 w) = .ok (.validateStream w) ∧
    decode .stream (.command 0b101#3 w) = .ok (.payloadStream w) ∧
    decode .serial (.command 0b010#3 w) = .ok (.lengthSerial w) ∧
    decode .serial (.command 0b011#3 w) = .ok (.headerSerial w) ∧
    decode .serial (.command 0b100#3 w) = .ok (.validateSerial w) ∧
    decode .serial (.command 0b101#3 w) = .ok (.payloadSerial w) ∧
    (∀ (s : State) (op : BitVec 3) (rest : List Request), op = 0b110#3 ∨ op = 0b111#3 →
      s.script = .op (.command op w) :: rest → step s = .refused (.reservedCommand op))

/-- R71, R66 (the spec's decision D2, log 17): no two command rows of the opcode table fit one key; a key that decodes does so by a row that fits it and
bears the instruction's mnemonic; a key that no row fits is rejected. -/
def Obligations.OpcodeTableDecidesEveryKey : Prop :=
  opcodeRows.Pairwise (fun r q => ∀ key, ¬ (r.fits key = true ∧ q.fits key = true)) ∧
  ∀ (key : BitVec 4) (w : List Byte),
    (∀ i, decodeKey key w = .ok i → ∃ r ∈ opcodeRows, r.fits key = true ∧ r.mnemonic = i.mnemonic) ∧
    ((∀ r ∈ opcodeRows, r.fits key = false) → ∃ op, decodeKey key w = .error (.reservedCommand op))

/-- The words written out from R60, R62 and R66 decode to what they stand for (a check on fixed words; how a word
of the table is laid out in bytes is the model's choice, log 8). -/
def Obligations.WrittenOutWordsDecode : Prop :=
  decodeTableWord 8 0b0000 = some .reset ∧
  decodeTableWord 8 0b1001 = some (.process []) ∧
  decodeTableWord 16 0x0001 = some (.process [0x00]) ∧
  decodeTableWord 8 0b0010 = some (.lengthStream []) ∧
  decodeTableWord 8 0b1101 = some (.payloadSerial []) ∧
  decodeTableWord 56 0x00010000000309 = some (.aduStreamHeader 1 0 3 9) ∧
  decodeTableWord 8 0x44 = some (.aduSerialHeader 68)

/-! ## The step -/

/-- R69 (log 9): when the head of the script decodes under the strap to an instruction, the step is exec of that
instruction, the script moved on by one; when it does not decode, the step refuses, by the decoder's reason. That operand bytes
on RESET and bytes that are no header do not decode is the model's choice (log 7, log 8). -/
def Obligations.StepRunsTheDecodedInstruction : Prop :=
  ∀ (s : State) (e : Encoded) (rest : List Request), s.script = .op e :: rest →
    (∀ i, decode s.variant e = .ok i → step s = exec i { s with script := rest }) ∧
    (∀ d, decode s.variant e = .error d → step s = .refused (refusalOf d))

/-- R201: with no operation issued the block holds its state. That the step then answers the same state is the model's
choice (log 9). -/
def Obligations.IdleStepHoldsTheState : Prop :=
  ∀ s : State, s.script = [] → step s = .next s

/-- R25 (the strap is the spec's decision D4, log 17): no step writes the strap or the capacity. -/
def Obligations.StepNeverWritesTheStraps : Prop :=
  ∀ s t : State, step s = .next t → t.variant = s.variant ∧ t.cap = s.cap

/-! ## The invariant -/

/-- R27, R29, R21, R42: memory in its canonical form with no byte at or past `USED` specified (log 4), `USED` in
bounds, the window written, I2, I3, I4 and the Packet:
every step keeps them, from every state that has them (I2 after a failing S6 is the spec's decision D8, the Packet's form
its D12, log 17). -/
def Obligations.StepKeepsTheInvariant : Prop :=
  ∀ s t : State, s.Inv → step s = .next t → t.Inv

/-- R35 (the spec's decision D5, log 17): the state after reset, in the model's configuration (log 2), has the invariant. -/
def Obligations.ResetHasTheInvariant : Prop := State.reset.Inv

/-- R35 (the spec's decision D5, log 17): what is held right after reset; every byte of `BUF` is a free
value (log 4). -/
def Obligations.ResetState : Prop :=
  State.reset.used = 0 ∧ State.reset.complete = false ∧ State.reset.packet = none ∧
  ∀ a, State.reset.bufByte a = Config.staleByte 0 a

/-- R22 (the spec's decision D17, log 17): with `CAP` = 260 the cursor fits in 9 bits. -/
def Obligations.CursorFitsNineBits : Prop :=
  ∀ s : State, s.Inv → s.cap = 260 → (BitVec.ofNat 9 s.used).toNat = s.used

/-! ## BUF -/

/-- R41: the two primitives: a byte written is the byte read, every other byte is as before, the canonical form is
kept; at or past the capacity both stop (log 11). -/
def Obligations.BufferPrimitives : Prop :=
  ∀ (cap : Nat) (m : Memory) (addr : Nat) (v : Byte),
    (addr < cap → ∃ m', memWrite cap m addr v = .ok m' ∧ memRead cap m' addr 1 = .ok [v] ∧
      (∀ b, b ≠ addr → Memory.read m' b = Memory.read m b) ∧ (Memory.wf cap m → Memory.wf cap m')) ∧
    (cap ≤ addr → memWrite cap m addr v = .error .bufferIndexOutOfRange) ∧
    (∀ n, memRead cap m addr n =
      if addr + n ≤ cap then .ok ((List.range n).map (fun i => Memory.read m (addr + i)))
      else .error .bufferIndexOutOfRange)

/-- R21, R34 (the spec's decision D22, log 17): no operation reads `BUF` at or past `USED`: two framers that differ there only take the same step,
with the same output, and still differ there only. A step leaves nothing specified there (log 4), so this speaks of
states that no run reaches too. -/
def Obligations.StaleBytesNeverMatter : Prop :=
  ∀ s1 s2 : State, s1.Alike s2 →
    (∀ t1, step s1 = .next t1 → ∃ t2, step s2 = .next t2 ∧ t1.Alike t2) ∧
    (∀ f, step s1 = .fault f → step s2 = .fault f) ∧
    (∀ r, step s1 = .refused r → step s2 = .refused r)

/-! ## RESET -/

/-- R210, R68, R35 (the spec's decisions D5, D16 and D22, log 17): RESET faults when the variant does not fit the capacity;
otherwise the state is EMPTY, there is no result, every byte of `BUF` is a fresh free value (log 4), and any outstanding Packet
is dead. -/
def Obligations.ResetEmptiesTheFramer : Prop :=
  ∀ s : State,
    (Config.maxAdu s.variant > s.cap → exec .reset s = .fault .capacityTooSmall) ∧
    (Config.maxAdu s.variant ≤ s.cap → ∃ t, exec .reset s = .next t ∧
      t.used = 0 ∧ t.complete = false ∧ t.packet = none ∧ t.out = .none ∧ t.epoch = s.epoch + 1 ∧
      (∀ a, t.bufByte a = Config.staleByte t.epoch a) ∧
      t.variant = s.variant ∧ t.cap = s.cap ∧ t.script = s.script)

/-- R190 (the check at RESET is the spec's decision D16, log 17): with `CAP` computed over the compiled-in variants and the strap one of them, RESET never faults. -/
def Obligations.ComputedCapacityNeverTooSmall : Prop :=
  ∀ (variants : List Variant) (s : State), s.variant ∈ variants → s.cap = Config.capOf variants →
    ∃ t, exec .reset s = .next t ∧ t.IsEmpty

/-! ## The STREAM contract operations -/

/-- R101: `LENGTH.STREAM`; that six bytes decide is the spec's decision D6 (log 17). -/
def Obligations.LengthStreamResult : Prop :=
  ∀ (w : List Byte) (s : State),
    (w.length < 6 → exec (.lengthStream w) s = .next { s with out := .length (.err .notEnoughData) }) ∧
    (∀ hi lo : Byte, w[4]? = some hi → w[5]? = some lo →
      exec (.lengthStream w) s = .next { s with
        out := .length
          (if hi.toNat * 256 + lo.toNat + 6 > 260 then .err .badLength else .ok (hi.toNat * 256 + lo.toNat + 6)) })

/-- R102: `HEADER.STREAM`; each field has the value its two bytes give, big-endian; that no
field is checked is the spec's decision D20 (log 17). -/
def Obligations.HeaderStreamResult : Prop :=
  ∀ (w : List Byte) (s : State),
    (w.length < 7 → exec (.headerStream w) s = .next { s with out := .header (.err .notEnoughData) }) ∧
    (∀ (b0 b1 b2 b3 b4 b5 b6 : Byte) (rest : List Byte), w = b0 :: b1 :: b2 :: b3 :: b4 :: b5 :: b6 :: rest →
      ∃ t p l : Half, t.toNat = b0.toNat * 256 + b1.toNat ∧ p.toNat = b2.toNat * 256 + b3.toNat ∧
        l.toNat = b4.toNat * 256 + b5.toNat ∧
        exec (.headerStream w) s = .next { s with out := .header (.ok (.stream t p l b6)) })

/-- R103: `VALIDATE.STREAM`; what counts as sufficient is the spec's decision D7 (log 17). -/
def Obligations.ValidateStreamResult : Prop :=
  ∀ (w : List Byte) (s : State),
    (w.length < 7 → exec (.validateStream w) s = .next { s with out := .validate (.err .notEnoughData) }) ∧
    (∀ hi lo : Byte, 7 ≤ w.length → w[4]? = some hi → w[5]? = some lo →
      exec (.validateStream w) s = .next { s with
        out := .validate
          (if w.length < hi.toNat * 256 + lo.toNat + 6 then .err .notEnoughData else .ok ()) })

/-- R104: `PAYLOAD.STREAM`; that it ends where the window ends is the spec's decision D21 (log 17). -/
def Obligations.PayloadStreamResult : Prop :=
  ∀ (w : List Byte) (s : State),
    (w.length < 7 → exec (.payloadStream w) s = .next { s with out := .payload (.err .notEnoughData) }) ∧
    (∀ hi lo : Byte, 7 ≤ w.length → w[4]? = some hi → w[5]? = some lo →
      exec (.payloadStream w) s = .next { s with
        out := .payload
          (if w.length < hi.toNat * 256 + lo.toNat + 6 then .err .notEnoughData else .ok (7, w.length - 7)) })

/-- R105: the only errors of the STREAM contract. -/
def Obligations.StreamErrorKinds : Prop :=
  ∀ (w : List Byte) (e : Err),
    (streamLength w = .err e → e = .notEnoughData ∨ e = .badLength) ∧
    (streamHeader w = .err e → e = .notEnoughData) ∧
    (streamValidate w = .err e → e = .notEnoughData) ∧
    (streamPayload w = .err e → e = .notEnoughData)

/-- R106: the STREAM contract is conforming at every capacity that holds its largest ADU. -/
def Obligations.StreamContractConforms : Prop :=
  ∀ cap : Nat, 260 ≤ cap → streamContract.Conforming cap

/-! ## The SERIAL contract operations -/

/-- R122: `LENGTH.SERIAL`, for whatever `SERIAL_LENGTH` answers. -/
def Obligations.LengthSerialResult : Prop :=
  ∀ (w : List Byte) (s : State),
    exec (.lengthSerial w) s = .next { s with
      out := .length
        (match Config.serialLength w with
       | .notEnoughData => .err .notEnoughData
       | .badFuncCode => .err .badFuncCode
       | .ok a => if a > 256 then .err .badLength else .ok a) }

/-- R123 (the spec's decision D15, log 17): `HEADER.SERIAL`. -/
def Obligations.HeaderSerialResult : Prop :=
  ∀ s : State,
    exec (.headerSerial []) s = .next { s with out := .header (.err .notEnoughData) } ∧
    ∀ (address : Byte) (rest : List Byte),
      exec (.headerSerial (address :: rest)) s = .next { s with out := .header (.ok (.serial address)) }

/-- R124 (the spec's decision D15, log 17): `VALIDATE.SERIAL`, for whatever `SERIAL_CHECK` answers. -/
def Obligations.ValidateSerialResult : Prop :=
  ∀ (w : List Byte) (s : State),
    exec (.validateSerial w) s = .next { s with
      out := .validate
        (if w.length < 3 then .err .notEnoughData
       else if Config.serialCheck w then .ok () else .err .badErrorCheck) }

/-- R125 (the spec's decision D15, log 17): `PAYLOAD.SERIAL`. -/
def Obligations.PayloadSerialResult : Prop :=
  ∀ (w : List Byte) (s : State),
    exec (.payloadSerial w) s = .next { s with
      out := .payload
        (if w.length < 3 then .err .notEnoughData
       else if Config.serialCheck w then .ok (1, w.length - 3) else .err .badErrorCheck) }

/-- R126 (the spec's decision D14, log 17): a `SERIAL_LENGTH` that meets its obligations makes the SERIAL contract
conforming, whatever the check; and R126's second bound, 3 at least, makes `PAYLOAD.SERIAL` meaningful: of every whole ADU the
header is its first byte, and the payload is what lies between it and the check value, or the check fails. -/
def Obligations.SerialContractConforms : Prop :=
  ∀ (serialLength : List Byte → SerialLength) (serialCheck : List Byte → Bool),
    (∀ cap : Nat, 256 ≤ cap → SerialLengthObligations serialLength →
      (serialContract serialLength serialCheck).Conforming cap) ∧
    (SerialLengthMeaningful serialLength → ∀ (w : List Byte) (a : Nat),
      (serialContract serialLength serialCheck).length w = .ok a → a ≤ w.length →
      (∃ address, w[0]? = some address ∧
        (serialContract serialLength serialCheck).header (w.take a) = .ok (.serial address)) ∧
      (serialContract serialLength serialCheck).payload (w.take a) =
        if serialCheck (w.take a) then .ok (1, a - 3) else .err .badErrorCheck)

/-- R126 read exactly: the SERIAL contract is conforming if and only if `SERIAL_LENGTH` meets the obligations for
lengths up to 256; R126's own W4 also speaks of longer lengths, which `LENGTH.SERIAL` never returns (log 13). -/
def Obligations.SerialConformanceExactly : Prop :=
  ∀ (serialLength : List Byte → SerialLength) (serialCheck : List Byte → Bool) (cap : Nat), 256 ≤ cap →
    ((serialContract serialLength serialCheck).Conforming cap ↔
      (∀ w a, serialLength w = .ok a → 1 ≤ a) ∧
      (∀ w a x, serialLength w = .ok a → a ≤ 256 → serialLength (w ++ x) = .ok a) ∧
      (∀ w a m, serialLength w = .ok a → a ≤ 256 → a ≤ m → m ≤ w.length → serialLength (w.take m) = .ok a) ∧
      (∀ w, 256 ≤ w.length → serialLength w ≠ .notEnoughData) ∧
      serialLength [] = .notEnoughData)

/-! ## Purity and the frame formats -/

/-- R81: each contract operation's output depends on the window alone, and nothing but the output changes; inside
PROCESS the window is `BUF[0..USED)`, and what the contract answers there depends on it alone. -/
def Obligations.ContractOperationsArePure : Prop :=
  (∀ (f : List Byte → Instr),
    f ∈ [Instr.lengthStream, Instr.headerStream, Instr.validateStream, Instr.payloadStream,
      Instr.lengthSerial, Instr.headerSerial, Instr.validateSerial, Instr.payloadSerial] →
    ∀ w, ∃ o : Output, ∀ s : State, exec (f w) s = .next { s with out := o }) ∧
  ∀ (chunk1 chunk2 : List Byte) (s1 s2 : State), s1.variant = s2.variant → s1.before ≤ s1.cap → s2.before ≤ s2.cap →
    s1.before = s2.before → s1.room chunk1 = s2.room chunk2 → s1.gathered chunk1 = s2.gathered chunk2 →
    ∀ t1, exec (.process chunk1) s1 = .next t1 → ∃ t2, exec (.process chunk2) s2 = .next t2 ∧ t2.out = t1.out

/-- R60, R61 (log 6): the seven bytes of a STREAM header decode to the fields they hold, and the extractor returns
them, as `HEADER.STREAM` of the same bytes does; nothing else changes. -/
def Obligations.AduStreamHeaderFields : Prop :=
  (∀ (t p l : Half) (u : Byte) (s : State),
    exec (.aduStreamHeader t p l u) s = .next { s with out := .header (.ok (.stream t p l u)) }) ∧
  ∀ b0 b1 b2 b3 b4 b5 b6 : Byte, ∃ t p l : Half,
    t.toNat = b0.toNat * 256 + b1.toNat ∧ p.toNat = b2.toNat * 256 + b3.toNat ∧
    l.toNat = b4.toNat * 256 + b5.toNat ∧
    decode .stream (.frame [b0, b1, b2, b3, b4, b5, b6]) = .ok (.aduStreamHeader t p l b6) ∧
    ∀ s, exec (.aduStreamHeader t p l b6) s = exec (.headerStream [b0, b1, b2, b3, b4, b5, b6]) s

/-- R62, R63 (log 6): the SERIAL header byte decodes to its address, and the extractor returns it, as
`HEADER.SERIAL` of the same byte does; nothing else changes. -/
def Obligations.AduSerialHeaderField : Prop :=
  ∀ (b : Byte) (s : State),
    decode .serial (.frame [b]) = .ok (.aduSerialHeader b) ∧
    exec (.aduSerialHeader b) s = .next { s with out := .header (.ok (.serial b)) } ∧
    exec (.aduSerialHeader b) s = exec (.headerSerial [b]) s

/-! ## PROCESS: its steps -/

/-- R137 (`before` as in the spec's decision D13, log 17): step S2 stores the first `min(CAP - before, n)` bytes of the chunk
at `before` and up, and no other byte of the buffered window changes. So after PROCESS every byte below `USED` is the chunk's
or as before; a byte at or past `USED` is a fresh free value (R21, R34, the spec's decision D22; log 4). The straps and the
caller's script are as before. -/
def Obligations.ProcessStoresTheChunkAndNothingElse : Prop :=
  ∀ (chunk : List Byte) (s t : State), exec (.process chunk) s = .next t →
    (∃ s2, s.startOperation.supersede.append chunk = .ok s2 ∧ s2.used = s.before + s.room chunk ∧
      (∀ i, i < s.room chunk → chunk[i]? = some (s2.bufByte (s.before + i))) ∧
      (∀ a, a < s.before → s2.bufByte a = s.bufByte a)) ∧
    (∀ i, i < s.room chunk → s.before + i < t.used → chunk[i]? = some (t.bufByte (s.before + i))) ∧
    (∀ a, a < s.before → a < t.used → t.bufByte a = s.bufByte a) ∧
    (∀ a, t.used ≤ a → t.bufByte a = Config.staleByte t.epoch a) ∧
    t.used ≤ s.before + s.room chunk ∧ s.before + s.room chunk ≤ s.cap ∧
    t.epoch = s.epoch + 1 ∧ t.variant = s.variant ∧ t.cap = s.cap ∧ t.script = s.script

/-- R138: step S3: `NotEnoughData` retains the buffered bytes; any other failure of `LENGTH` discards them; the error
is passed on. -/
def Obligations.LengthFailureRetainsOrDiscards : Prop :=
  ∀ (chunk : List Byte) (s : State) (e : Err), s.before ≤ s.cap →
    (contractOf s.variant).length (s.gathered chunk) = .err e →
    ∃ t consumed, exec (.process chunk) s = .next t ∧ t.out = .process (.err e consumed) ∧
      t.complete = false ∧ t.packet = none ∧
      (e = .notEnoughData → t.used = s.before + s.room chunk ∧ t.window = s.gathered chunk) ∧
      (e ≠ .notEnoughData → t.used = 0)

/-- R139: step S4: an incomplete ADU gives `NotEnoughData`, the output that S3's first case gives, and retains the buffered
bytes. `consumed` is the spec's decision D10 (log 17). -/
def Obligations.IncompleteAduIsRetained : Prop :=
  ∀ (chunk : List Byte) (s : State) (a : Nat), s.before ≤ s.cap →
    (contractOf s.variant).length (s.gathered chunk) = .ok a → s.before + s.room chunk < a →
    ∃ t, exec (.process chunk) s = .next t ∧ t.out = .process (.err .notEnoughData (s.room chunk)) ∧
      t.used = s.before + s.room chunk ∧ t.window = s.gathered chunk ∧ t.complete = false ∧ t.packet = none

/-- R140: step S5: the flag set, `USED` the ADU's length, `ri` = a - before, and the leftover the chunk from `ri` on. What S2
copied past the ADU is stale, a free value (R34; log 4). `before` is the spec's decision D13 (log 17). A length below what was
buffered before the call is the fault `NegativeLeftoverIndex`, the spec's own addition (R190, U7). -/
def Obligations.CompleteAduIsClaimed : Prop :=
  ∀ (chunk : List Byte) (s : State) (a : Nat), s.before ≤ s.cap →
    (contractOf s.variant).length (s.gathered chunk) = .ok a → a ≤ s.before + s.room chunk →
    (a < s.before → exec (.process chunk) s = .fault .negativeLeftoverIndex) ∧
    (∀ (h : Header) (off plen : Nat), s.before ≤ a →
      (contractOf s.variant).header ((s.gathered chunk).take a) = .ok h →
      (contractOf s.variant).payload ((s.gathered chunk).take a) = .ok (off, plen) →
      ∃ t consumed, exec (.process chunk) s = .next t ∧
        t.out = .process (.ok ⟨h, off, plen⟩ (a - s.before) consumed) ∧
        t.complete = true ∧ t.used = a ∧ t.window = (s.gathered chunk).take a ∧
        s.kept ++ chunk = t.window ++ leftover chunk (a - s.before) ∧
        ∀ b, a ≤ b → t.bufByte b = Config.staleByte t.epoch b)

/-- R141: step S6 on the window `BUF[0..a)`, through any contract (PROCESS is `processWith` of the strapped variant's,
R87): `HEADER` first, then `PAYLOAD`; both succeeding give the Packet; either failing discards everything, clears the flag
and passes the error on. The discard on `NotEnoughData`, the order and `consumed` are the spec's decisions D8, D9 and D10
(log 17). -/
def Obligations.BuildReturnsThePacketOrDiscards : Prop :=
  (∀ (chunk : List Byte) (s : State), exec (.process chunk) s = processWith (contractOf s.variant) chunk s) ∧
  ∀ (c : Contract) (chunk : List Byte) (s : State) (a : Nat), s.before ≤ s.cap →
    c.length (s.gathered chunk) = .ok a → a ≤ s.before + s.room chunk → s.before ≤ a →
    (∀ e, c.header ((s.gathered chunk).take a) = .err e →
      ∃ t, processWith c chunk s = .next t ∧ t.out = .process (.err e (a - s.before)) ∧
        t.used = 0 ∧ t.complete = false ∧ t.packet = none) ∧
    (∀ h e, c.header ((s.gathered chunk).take a) = .ok h → c.payload ((s.gathered chunk).take a) = .err e →
      ∃ t, processWith c chunk s = .next t ∧ t.out = .process (.err e (a - s.before)) ∧
        t.used = 0 ∧ t.complete = false ∧ t.packet = none) ∧
    (∀ h off plen, c.header ((s.gathered chunk).take a) = .ok h →
      c.payload ((s.gathered chunk).take a) = .ok (off, plen) →
      ∃ t, processWith c chunk s = .next t ∧ t.packet = some ⟨h, off, plen⟩ ∧
        t.out = .process (.ok ⟨h, off, plen⟩ (a - s.before) (a - s.before)))

/-- R142 (the spec's decision D10, log 17): `consumed` on every result: `ri` on `Ok`, the bytes appended on an error out
of S3 or S4, the ADU's bytes of this chunk on an error out of S6. -/
def Obligations.ConsumedOnEveryResult : Prop :=
  ∀ (chunk : List Byte) (s t : State), exec (.process chunk) s = .next t →
    (∀ p ri consumed, t.out = .process (.ok p ri consumed) → consumed = ri) ∧
    (∀ e, (contractOf s.variant).length (s.gathered chunk) = .err e → t.out = .process (.err e (s.room chunk))) ∧
    (∀ a, (contractOf s.variant).length (s.gathered chunk) = .ok a → s.before + s.room chunk < a →
      t.out = .process (.err .notEnoughData (s.room chunk))) ∧
    (∀ a e consumed, (contractOf s.variant).length (s.gathered chunk) = .ok a → a ≤ s.before + s.room chunk →
      t.out = .process (.err e consumed) → consumed = a - s.before)

/-- R190, U7: through any contract, a length below what was buffered before the call is the fault
`NegativeLeftoverIndex`; and the model's own stop: `USED` past the capacity (log 11). -/
def Obligations.ProcessFaults : Prop :=
  ∀ (c : Contract) (chunk : List Byte) (s : State),
    (∀ a, s.before ≤ s.cap → c.length (s.gathered chunk) = .ok a → a < s.before →
      processWith c chunk s = .fault .negativeLeftoverIndex) ∧
    (s.cap < s.before → processWith c chunk s = .fault .bufferIndexOutOfRange)

/-! ## PROCESS: what follows for a conforming contract -/

/-- R143, R27: through a conforming contract, from a steady state, PROCESS never faults, and the state after is
steady. -/
def Obligations.SteadyProcessCompletes : Prop :=
  ∀ (c : Contract) (chunk : List Byte) (s : State), c.Conforming s.cap → s.Steady c →
    ∃ t, processWith c chunk s = .next t ∧ t.Steady c

/-- R143: bounds on the leftover index: `1 <= ri <= k <= n`. -/
def Obligations.LeftoverIndexBounds : Prop :=
  ∀ (c : Contract) (chunk : List Byte) (s t : State) (p : Packet) (ri consumed : Nat),
    c.Conforming s.cap → s.Steady c → processWith c chunk s = .next t → t.out = .process (.ok p ri consumed) →
    consumed = ri ∧ 1 ≤ ri ∧ ri ≤ s.room chunk ∧ s.room chunk ≤ chunk.length

/-- R144: no excess on `NotEnoughData` out of S3 or S4: the whole chunk is buffered. -/
def Obligations.NotEnoughDataBuffersTheWholeChunk : Prop :=
  ∀ (c : Contract) (chunk : List Byte) (s : State), c.Conforming s.cap → s.before ≤ s.cap →
    (c.length (s.gathered chunk) = .err .notEnoughData ∨
      ∃ a, c.length (s.gathered chunk) = .ok a ∧ s.before + s.room chunk < a) →
    ∃ t, processWith c chunk s = .next t ∧ t.out = .process (.err .notEnoughData chunk.length) ∧
      t.window = s.kept ++ chunk

/-- R28: the state machine, by the result of PROCESS, row by row, and RESET from any state. -/
def Obligations.PhaseFollowsTheResult : Prop :=
  (∀ s t : State, exec .reset s = .next t → t.phase = .empty) ∧
  ∀ (c : Contract) (chunk : List Byte) (s t : State), c.Conforming s.cap → s.Steady c →
    processWith c chunk s = .next t →
    (∀ p ri k, t.out = .process (.ok p ri k) →
      t.phase = .holding ∧ t.used = s.before + ri ∧ c.length (s.gathered chunk) = .ok t.used) ∧
    (∀ e k, t.out = .process (.err e k) → e.destructive = true → t.phase = .empty) ∧
    (∀ a e k, c.length (s.gathered chunk) = .ok a → a ≤ s.before + s.room chunk → t.out = .process (.err e k) →
      t.phase = .empty) ∧
    (c.length (s.gathered chunk) = .err .notEnoughData ∨
        (∃ a, c.length (s.gathered chunk) = .ok a ∧ s.before + s.room chunk < a) →
      t.used = s.before + chunk.length ∧
      t.phase = if s.before = 0 ∧ chunk = [] then .empty else .partialMessage)

/-- R151: HOLDING and EMPTY are the same state to every later PROCESS. -/
def Obligations.HoldingActsAsEmpty : Prop :=
  ∀ (c : Contract) (chunk : List Byte) (s1 s2 : State),
    s1.complete = true → s2.IsEmpty → s1.cap = s2.cap →
    ∃ t1 t2, processWith c chunk s1 = .next t1 ∧ processWith c chunk s2 = .next t2 ∧
      t1.out = t2.out ∧ t1.used = t2.used ∧ t1.complete = t2.complete ∧ t1.window = t2.window ∧
      t1.packet = t2.packet

/-- R148: the empty chunk supersedes a held message, and leaves a partial one as it is. -/
def Obligations.EmptyChunk : Prop :=
  ∀ (c : Contract) (s : State), c.Conforming s.cap → s.Steady c →
    ∃ t, processWith c [] s = .next t ∧ t.out = .process (.err .notEnoughData 0) ∧ t.packet = none ∧
      t.complete = false ∧ t.used = s.before ∧ t.window = s.kept

/-- R152: chunking does not matter: after a `NotEnoughData` that kept the bytes, the next PROCESS gives what one
PROCESS of both chunks gives, `ri` and `consumed` smaller by the first chunk's length. -/
def Obligations.ChunkingDoesNotMatter : Prop :=
  ∀ (c : Contract) (c1 c2 : List Byte) (s s1 : State), c.Conforming s.cap → s.Steady c → s.complete = false →
    (c.length (s.gathered c1) = .err .notEnoughData ∨
      ∃ a, c.length (s.gathered c1) = .ok a ∧ s.before + s.room c1 < a) →
    processWith c c1 s = .next s1 →
    ∃ t t' r, processWith c c2 s1 = .next t ∧ processWith c (c1 ++ c2) s = .next t' ∧
      t.out = .process r ∧ t'.out = .process (r.later c1.length) ∧
      t'.used = t.used ∧ t'.complete = t.complete ∧ t'.window = t.window ∧ t'.packet = t.packet

/-- R153: draining a concatenation of whole ADUs issues one PROCESS for each, and each returns its own header and
payload, of any total length. -/
def Obligations.DrainPeelsOneAduPerCall : Prop :=
  ∀ (c : Contract) (adus : List (List Byte)) (s : State), c.Conforming s.cap → s.IsEmpty → adus ≠ [] →
    (∀ x ∈ adus, c.Accepts x) →
    ∃ ts, drain c adus.flatten s = .next ts ∧
      ts.map State.processResult = adus.map c.resultFor ∧
      ts.map State.window = adus ∧ ∀ t ∈ ts, t.complete = true

/-- R70: DRAIN ends: at most one PROCESS for each byte, or one when there is none. -/
def Obligations.DrainEnds : Prop :=
  ∀ (c : Contract) (bytes : List Byte) (s : State), c.Conforming s.cap → s.Steady c →
    ∃ ts, drain c bytes s = .next ts ∧ 1 ≤ ts.length ∧ ts.length ≤ max 1 bytes.length

/-- U8: a contract that is not conforming can stick: full, and asking for more, PROCESS appends nothing and changes
nothing that a later PROCESS sees. -/
def Obligations.StuckFullBuffer : Prop :=
  ∀ (c : Contract) (chunk : List Byte) (s : State), s.complete = false → s.used = s.cap →
    (c.length s.window = .err .notEnoughData ∨ ∃ a, c.length s.window = .ok a ∧ s.cap < a) →
    ∃ t, processWith c chunk s = .next t ∧ t.out = .process (.err .notEnoughData 0) ∧
      t.used = s.cap ∧ t.complete = false ∧ t.window = s.window

/-- R146, R188: after a destructive error the framer is EMPTY, and a later PROCESS gives what it gives of any EMPTY
framer of the same capacity. -/
def Obligations.RecoveryAfterDestructiveError : Prop :=
  ∀ (c : Contract) (chunk next : List Byte) (s t s0 : State) (e : Err) (k : Nat),
    processWith c chunk s = .next t → t.out = .process (.err e k) → e.destructive = true →
    s0.IsEmpty → s0.cap = s.cap →
    t.IsEmpty ∧ t.packet = none ∧
    ∃ u u0, processWith c next t = .next u ∧ processWith c next s0 = .next u0 ∧
      u.out = u0.out ∧ u.used = u0.used ∧ u.complete = u0.complete ∧ u.window = u0.window ∧ u.packet = u0.packet

/-! ## PROCESS with the STREAM variant -/

/-- R149, R135 (the spec's decisions D6, D8 and D10, log 17): a STREAM PROCESS is decided by how many bytes are gathered and by the declared length in them. -/
def Obligations.StreamProcessByDeclaredLength : Prop :=
  ∀ (chunk : List Byte) (s : State), s.variant = .stream → 260 ≤ s.cap → s.Steady streamContract →
    ((s.gathered chunk).length < 6 → ∃ t, exec (.process chunk) s = .next t ∧
      t.out = .process (.err .notEnoughData chunk.length) ∧ t.complete = false ∧ t.packet = none ∧
      t.window = s.kept ++ chunk) ∧
    (∀ (hi lo : Byte) (l : Nat), (s.gathered chunk)[4]? = some hi → (s.gathered chunk)[5]? = some lo →
      l = hi.toNat * 256 + lo.toNat →
      (255 ≤ l → ∃ t, exec (.process chunk) s = .next t ∧
        t.out = .process (.err .badLength (s.room chunk)) ∧ t.IsEmpty ∧ t.packet = none) ∧
      (l = 0 → ∃ t, exec (.process chunk) s = .next t ∧
        t.out = .process (.err .notEnoughData (6 - s.before)) ∧ t.IsEmpty ∧ t.packet = none) ∧
      (1 ≤ l → l ≤ 254 →
        (s.gathered chunk).length < l + 6 → ∃ t, exec (.process chunk) s = .next t ∧
          t.out = .process (.err .notEnoughData chunk.length) ∧ t.complete = false ∧ t.packet = none ∧
          t.window = s.kept ++ chunk) ∧
      (1 ≤ l → l ≤ 254 →
        l + 6 ≤ (s.gathered chunk).length → ∃ t h, exec (.process chunk) s = .next t ∧
          streamHeader (s.gathered chunk) = .ok h ∧
          t.out = .process (.ok ⟨h, 7, l - 1⟩
            (l + 6 - s.before) (l + 6 - s.before)) ∧
          t.complete = true ∧ t.used = l + 6 ∧
          t.window = (s.gathered chunk).take (l + 6)))

/-- R149(h), R150 (no other field is checked by the spec's decision D20, log 17): with the STREAM variant, only the declared length and the lengths of the window and chunk decide
the status, `consumed`, `USED` and `COMPLETE`. -/
def Obligations.OnlyTheDeclaredLengthDecides : Prop :=
  ∀ (chunk1 chunk2 : List Byte) (s1 s2 : State),
    s1.variant = .stream → s2.variant = .stream → s1.cap = s2.cap → s1.used = s2.used →
    s1.complete = s2.complete → chunk1.length = chunk2.length →
    (s1.gathered chunk1)[4]? = (s2.gathered chunk2)[4]? → (s1.gathered chunk1)[5]? = (s2.gathered chunk2)[5]? →
    ∀ t1, exec (.process chunk1) s1 = .next t1 →
      ∃ t2 r1 r2, exec (.process chunk2) s2 = .next t2 ∧ t1.out = .process r1 ∧ t2.out = .process r2 ∧
        r1.status = r2.status ∧ r1.consumed = r2.consumed ∧ t1.used = t2.used ∧ t1.complete = t2.complete

/-- S-4, T2: one byte at a time, from EMPTY: every STREAM ADU gives `NotEnoughData` on each byte but the last, which
returns the Packet with an empty leftover. -/
def Obligations.OneByteAtATime : Prop :=
  ∀ (x : List Byte) (s : State), IsStreamAdu x → s.variant = .stream → 260 ≤ s.cap → s.IsEmpty → s.script = feed1 x →
    (∀ n, 0 < n → n < x.length → ∃ t, Sys2Proof.core.run n s = .next t ∧
      t.out = .process (.err .notEnoughData 1) ∧ t.window = x.take n ∧ t.complete = false) ∧
    ∃ t h, Sys2Proof.core.run x.length s = .next t ∧ streamHeader x = .ok h ∧
      t.out = .process (.ok ⟨h, 7, x.length - 7⟩ 1 1) ∧ t.window = x ∧ t.complete = true

/-- T3: split anywhere: the two parts of a STREAM ADU give `NotEnoughData` and then the Packet. -/
def Obligations.SplitAnywhere : Prop :=
  ∀ (x : List Byte) (i : Nat) (s : State), IsStreamAdu x → i < x.length → s.variant = .stream → 260 ≤ s.cap →
    s.IsEmpty →
    ∃ t1 t2 h, exec (.process (x.take i)) s = .next t1 ∧ t1.out = .process (.err .notEnoughData i) ∧
      exec (.process (x.drop i)) t1 = .next t2 ∧ streamHeader x = .ok h ∧
      t2.out = .process (.ok ⟨h, 7, x.length - 7⟩ (x.length - i) (x.length - i)) ∧ t2.window = x

/-! ## The Packet -/

/-- R29 (the spec's decision D12, log 17): while the Packet is valid, a read through its view gives the payload bytes of the buffered window and changes
nothing but the output and the script (that it is a request of the step is the model's choice, log 10). -/
def Obligations.PacketViewReadsThePayload : Prop :=
  ∀ (s : State) (p : Packet) (rest : List Request), s.Inv → s.packet = some p →
    s.script = .view s.epoch :: rest →
    step s = .next { s with script := rest, out := .view ((s.window.drop p.off).take p.plen) } ∧
    ((s.window.drop p.off).take p.plen).length = p.plen

/-- R220, R221 (the spec's decisions D12 and D23, log 17): the Packet dies at the start of the next RESET or PROCESS, and a
read through it is refused after any later one. That a read names its Packet by a count of those operations is the model's
choice (log 10): each raises the count, no step lowers it, and every read by a number that is not the present one, or with no
Packet valid, is refused. None of the pure operations ends the Packet. -/
def Obligations.PacketDiesAtTheNextOperation : Prop :=
  (∀ (s : State) (epoch : Nat) (rest : List Request), s.script = .view epoch :: rest →
    epoch ≠ s.epoch ∨ s.packet = none → step s = .refused .stalePacket) ∧
  (∀ (s t : State) (i : Instr), (i = .reset ∨ ∃ chunk, i = .process chunk) → exec i s = .next t →
    t.epoch = s.epoch + 1 ∧
    ∀ (n : Nat) (u : State) (epoch : Nat) (rest : List Request), Sys2Proof.core.run n t = .next u → epoch ≤ s.epoch →
      step { u with script := .view epoch :: rest } = .refused .stalePacket) ∧
  (∀ s t : State, step s = .next t → s.epoch ≤ t.epoch) ∧
  (∀ (s t : State) (i : Instr), i ≠ .reset → (∀ chunk, i ≠ .process chunk) → exec i s = .next t →
    t.packet = s.packet ∧ t.epoch = s.epoch ∧ t.window = s.window)

/-! ## Status codes -/

/-- R67 (the numbers are the spec's decision D3, log 17): the status codes, of PROCESS and of the contract operations: 0 for `Ok`, 1 to 4 for the error kinds in the source's order, 5 to 7 never produced; every
error kind but `NotEnoughData` is destructive. -/
def Obligations.StatusCodes : Prop :=
  (∀ p ri k, (ProcessResult.ok p ri k).status = 0#3) ∧
  (∀ k, (ProcessResult.err .notEnoughData k).status = 1#3) ∧
  (∀ k, (ProcessResult.err .badLength k).status = 2#3) ∧
  (∀ k, (ProcessResult.err .badErrorCheck k).status = 3#3) ∧
  (∀ k, (ProcessResult.err .badFuncCode k).status = 4#3) ∧
  (∀ r : ProcessResult, r.status.toNat ≤ 4) ∧
  (∀ (α : Type) (v : α), (Result.ok v).status = 0#3) ∧
  (∀ α : Type, (Result.err (α := α) .notEnoughData).status = 1#3 ∧ (Result.err (α := α) .badLength).status = 2#3 ∧
    (Result.err (α := α) .badErrorCheck).status = 3#3 ∧ (Result.err (α := α) .badFuncCode).status = 4#3) ∧
  (∀ (α : Type) (r : Result α), r.status.toNat ≤ 4) ∧
  (∀ e : Err, e.destructive = true ↔ e ≠ .notEnoughData)

/-! ## The external bit-pack codec -/

/-- R170: `BYTES_NEEDED n` is the least number of bytes that hold n bits. -/
def Obligations.BytesNeededIsTheCeiling : Prop :=
  ∀ n : Nat, n ≤ 8 * bytesNeeded n ∧ ∀ m, n ≤ 8 * m → bytesNeeded n ≤ m

/-- R171 (the spec's decision D25, log 17): `PACK`: each bit of a used byte is its coil, the unused trailing bits are 0, the bytes beyond are untouched;
too few bytes are a fault. -/
def Obligations.PackResult : Prop :=
  ∀ (coils : List Bool) (out : List Byte),
    (out.length < bytesNeeded coils.length → pack coils out = .error .destinationTooSmall) ∧
    (bytesNeeded coils.length ≤ out.length → ∃ out', pack coils out = .ok out' ∧ out'.length = out.length ∧
      (∀ j, bytesNeeded coils.length ≤ j → out'[j]? = out[j]?) ∧
      (∀ j b, j < bytesNeeded coils.length → out'[j]? = some b →
        ∀ i, i < 8 → b.getLsbD i = coils.getD (8 * j + i) false))

/-- R172 (the spec's decision D25, log 17): `UNPACK`: coil i is bit i mod 8 of byte i div 8; too few bytes are a fault. -/
def Obligations.UnpackResult : Prop :=
  ∀ (bytes : List Byte) (n : Nat),
    (bytes.length < bytesNeeded n → unpack bytes n = .error .sourceTooSmall) ∧
    (bytesNeeded n ≤ bytes.length → ∃ coils, unpack bytes n = .ok coils ∧ coils.length = n ∧
      ∀ i b, i < n → bytes[i / 8]? = some b → coils[i]? = some (b.getLsbD (i % 8)))

/-- R173: pack-then-unpack gives the coils back, for any number of them. -/
def Obligations.PackThenUnpack : Prop :=
  ∀ (coils : List Bool) (out : List Byte), bytesNeeded coils.length ≤ out.length →
    ∃ packed, pack coils out = .ok packed ∧ unpack packed coils.length = .ok coils
end

