-- ==== Sys2Proof/Laws/State.lean ====
section
/-! SUPPORT. State laws: one lemma per field per update of the framer's state. -/

namespace Sys2Proof.Machine

@[simp] theorem State.startOperation_buf (s : State) : s.startOperation.buf = s.buf := rfl
@[simp] theorem State.startOperation_used (s : State) : s.startOperation.used = s.used := rfl
@[simp] theorem State.startOperation_complete (s : State) : s.startOperation.complete = s.complete := rfl
@[simp] theorem State.startOperation_variant (s : State) : s.startOperation.variant = s.variant := rfl
@[simp] theorem State.startOperation_cap (s : State) : s.startOperation.cap = s.cap := rfl
@[simp] theorem State.startOperation_packet (s : State) : s.startOperation.packet = none := rfl
@[simp] theorem State.startOperation_epoch (s : State) : s.startOperation.epoch = s.epoch + 1 := rfl
@[simp] theorem State.startOperation_out (s : State) : s.startOperation.out = s.out := rfl
@[simp] theorem State.startOperation_script (s : State) : s.startOperation.script = s.script := rfl

@[simp] theorem State.returns_buf (s : State) (o : Output) : (s.returns o).buf = s.buf := rfl
@[simp] theorem State.returns_used (s : State) (o : Output) : (s.returns o).used = s.used := rfl
@[simp] theorem State.returns_complete (s : State) (o : Output) : (s.returns o).complete = s.complete := rfl
@[simp] theorem State.returns_variant (s : State) (o : Output) : (s.returns o).variant = s.variant := rfl
@[simp] theorem State.returns_cap (s : State) (o : Output) : (s.returns o).cap = s.cap := rfl
@[simp] theorem State.returns_packet (s : State) (o : Output) : (s.returns o).packet = s.packet := rfl
@[simp] theorem State.returns_epoch (s : State) (o : Output) : (s.returns o).epoch = s.epoch := rfl
@[simp] theorem State.returns_out (s : State) (o : Output) : (s.returns o).out = o := rfl
@[simp] theorem State.returns_script (s : State) (o : Output) : (s.returns o).script = s.script := rfl
@[simp] theorem State.returns_window (s : State) (o : Output) : (s.returns o).window = s.window := rfl

@[simp] theorem State.empty_buf (s : State) : s.empty.buf = [] := rfl
@[simp] theorem State.empty_used (s : State) : s.empty.used = 0 := rfl
@[simp] theorem State.empty_complete (s : State) : s.empty.complete = false := rfl
@[simp] theorem State.empty_variant (s : State) : s.empty.variant = s.variant := rfl
@[simp] theorem State.empty_cap (s : State) : s.empty.cap = s.cap := rfl
@[simp] theorem State.empty_packet (s : State) : s.empty.packet = s.packet := rfl
@[simp] theorem State.empty_epoch (s : State) : s.empty.epoch = s.epoch := rfl
@[simp] theorem State.empty_out (s : State) : s.empty.out = s.out := rfl
@[simp] theorem State.empty_script (s : State) : s.empty.script = s.script := rfl
@[simp] theorem State.empty_window (s : State) : s.empty.window = [] := rfl

@[simp] theorem State.claim_buf (s : State) (a : Nat) : (s.claim a).buf = Memory.below a s.buf := rfl
@[simp] theorem State.claim_used (s : State) (a : Nat) : (s.claim a).used = a := rfl
@[simp] theorem State.claim_complete (s : State) (a : Nat) : (s.claim a).complete = true := rfl
@[simp] theorem State.claim_variant (s : State) (a : Nat) : (s.claim a).variant = s.variant := rfl
@[simp] theorem State.claim_cap (s : State) (a : Nat) : (s.claim a).cap = s.cap := rfl
@[simp] theorem State.claim_packet (s : State) (a : Nat) : (s.claim a).packet = s.packet := rfl
@[simp] theorem State.claim_epoch (s : State) (a : Nat) : (s.claim a).epoch = s.epoch := rfl
@[simp] theorem State.claim_out (s : State) (a : Nat) : (s.claim a).out = s.out := rfl
@[simp] theorem State.claim_script (s : State) (a : Nat) : (s.claim a).script = s.script := rfl

/-- The list that step S1 leaves. -/
def State.keptBuf (s : State) : Memory := if s.complete then [] else s.buf

@[simp] theorem State.supersede_buf (s : State) : s.supersede.buf = s.keptBuf := by
  unfold State.supersede State.keptBuf; split <;> rfl
@[simp] theorem State.supersede_used (s : State) : s.supersede.used = s.before := by
  unfold State.supersede State.before; split <;> rfl
@[simp] theorem State.supersede_complete (s : State) : s.supersede.complete = false := by
  unfold State.supersede; split <;> simp_all
@[simp] theorem State.supersede_variant (s : State) : s.supersede.variant = s.variant := by
  unfold State.supersede; split <;> rfl
@[simp] theorem State.supersede_cap (s : State) : s.supersede.cap = s.cap := by
  unfold State.supersede; split <;> rfl
@[simp] theorem State.supersede_packet (s : State) : s.supersede.packet = s.packet := by
  unfold State.supersede; split <;> rfl
@[simp] theorem State.supersede_epoch (s : State) : s.supersede.epoch = s.epoch := by
  unfold State.supersede; split <;> rfl
@[simp] theorem State.supersede_out (s : State) : s.supersede.out = s.out := by
  unfold State.supersede; split <;> rfl
@[simp] theorem State.supersede_script (s : State) : s.supersede.script = s.script := by
  unfold State.supersede; split <;> rfl
@[simp] theorem State.supersede_window (s : State) : s.supersede.window = s.kept := by
  unfold State.supersede State.kept; split <;> rfl

@[simp] theorem State.before_startOperation (s : State) : s.startOperation.before = s.before := rfl
@[simp] theorem State.keptBuf_startOperation (s : State) : s.startOperation.keptBuf = s.keptBuf := rfl
@[simp] theorem State.kept_startOperation (s : State) : s.startOperation.kept = s.kept := rfl

/-! ## The bytes of `BUF` as the spec gives them -/

theorem State.bufByte_of_lt {s : State} {a : Nat} (h : a < s.used) : s.bufByte a = Memory.read s.buf a := if_pos h
theorem State.bufByte_of_ge {s : State} {a : Nat} (h : s.used ≤ a) : s.bufByte a = Config.staleByte s.epoch a :=
  if_neg (Nat.not_lt.mpr h)
@[simp] theorem State.returns_bufByte (s : State) (o : Output) (a : Nat) : (s.returns o).bufByte a = s.bufByte a := rfl

theorem State.endInError_retain (s : State) (e : Err) (k : Nat) :
    s.endInError .retain e k = s.returns (.process (.err e k)) := rfl
theorem State.endInError_discard (s : State) (e : Err) (k : Nat) :
    s.endInError .discard e k = s.empty.returns (.process (.err e k)) := rfl

end Sys2Proof.Machine
end

