-- ==== Sys2Proof/Laws/Memory.lean ====
section
/-! SUPPORT. Memory laws: reads after writes, the canonical form kept by every write, and the byte copy of step S2 as one fact. -/

namespace Sys2Proof.Machine

namespace Memory

/-- Reading after a write: the value written at that index, every other index as before. -/
theorem get_set (m : Memory) (a : Nat) (v : Byte) (c : Nat) :
    get (set m a v) c = if c = a then some v else get m c := by
  induction m with
  | nil => simp [set, get]
  | cons p m ih =>
    obtain ⟨b, x⟩ := p
    unfold set
    split
    · by_cases hc : c = a <;> simp [get, hc]
    · split
      · subst_vars
        by_cases hc : c = b <;> simp [get, hc]
      · by_cases hc : c = b
        · subst hc; simp [get]; omega
        · simp [get, hc, ih]

theorem mem_set {m : Memory} {a : Nat} {v : Byte} {p : Nat × Byte} (h : p ∈ set m a v) :
    p = (a, v) ∨ p ∈ m := by
  induction m with
  | nil => simpa [set] using h
  | cons q m ih =>
    obtain ⟨b, x⟩ := q
    unfold set at h
    split at h
    · simpa using h
    · split at h
      · rcases List.mem_cons.mp h with h | h
        · exact .inl h
        · exact .inr (by simp [h])
      · rcases List.mem_cons.mp h with h | h
        · exact .inr (by simp [h])
        · exact (ih h).imp id fun h => by simp [h]

/-- A write keeps the canonical form. -/
theorem wf_set {cap : Nat} {m : Memory} {a : Nat} {v : Byte} (h : wf cap m) (ha : a < cap) :
    wf cap (set m a v) := by
  refine ⟨?_, ?_⟩
  · have h := h.1
    induction m with
    | nil => simp [set]
    | cons p m ih =>
      obtain ⟨b, x⟩ := p
      obtain ⟨hb, hm⟩ := List.pairwise_cons.mp h
      unfold set
      split
      · refine List.pairwise_cons.mpr ⟨fun q hq => ?_, h⟩
        rcases List.mem_cons.mp hq with rfl | hq
        · assumption
        · have := hb q hq; simp only at *; omega
      · split
        · subst_vars; exact List.pairwise_cons.mpr ⟨hb, hm⟩
        · have hkeep := ih ⟨hm, fun p hp => ‹wf cap _›.2 p (by simp [hp])⟩ hm
          refine List.pairwise_cons.mpr ⟨fun q hq => ?_, hkeep⟩
          rcases mem_set hq with rfl | hq
          · simp only at *; omega
          · exact hb q hq
  · intro p hp
    rcases mem_set hp with rfl | hp
    · exact ha
    · exact h.2 p hp

theorem get_eq_none {m : Memory} {c : Nat} (h : ∀ p ∈ m, p.1 ≠ c) : get m c = none := by
  induction m with
  | nil => rfl
  | cons p m ih =>
    obtain ⟨b, x⟩ := p
    rw [get, if_neg fun hc => h (b, x) (by simp) hc.symm]
    exact ih fun p hp => h p (by simp [hp])

/-- Truncation keeps the bytes below the index and no other. -/
theorem get_below (n : Nat) (m : Memory) (c : Nat) : get (below n m) c = if c < n then get m c else none := by
  induction m with
  | nil => simp [below, get]
  | cons p m ih =>
    obtain ⟨b, x⟩ := p
    unfold below at *
    by_cases hb : b < n
    · rw [List.filter_cons_of_pos (by simpa using hb), get, get, ih]
      by_cases hc : c = b
      · subst hc; simp [hb]
      · simp [hc]
    · rw [List.filter_cons_of_neg (by simpa using hb), ih, get]
      by_cases hc : c = b
      · subst hc; simp [hb]
      · simp [hc]

theorem lt_of_mem_below {n : Nat} {m : Memory} {p : Nat × Byte} (h : p ∈ below n m) : p.1 < n := by
  simpa using (List.mem_filter.mp h).2

/-- Truncation keeps the canonical form. -/
theorem wf_below {cap : Nat} {m : Memory} (n : Nat) (h : wf cap m) : wf cap (below n m) :=
  ⟨h.1.filter _, fun p hp => h.2 p (List.mem_filter.mp hp).1⟩

theorem wf_nil (cap : Nat) : wf cap [] := ⟨.nil, fun _ h => nomatch h⟩

theorem read_eq_of_get_eq {m m' : Memory} {a : Nat} (h : get m a = get m' a) : read m a = read m' a := by
  simp [read, h]

@[simp] theorem length_readBytes (m : Memory) (a n : Nat) : (readBytes m a n).length = n := by
  induction n generalizing a with
  | zero => rfl
  | succ n ih => simp [readBytes, ih]

theorem getElem?_readBytes (m : Memory) (a n i : Nat) :
    (readBytes m a n)[i]? = if i < n then some (read m (a + i)) else none := by
  induction n generalizing a i with
  | zero => simp [readBytes]
  | succ n ih =>
    cases i with
    | zero => simp [readBytes]
    | succ i =>
      simp only [readBytes, List.getElem?_cons_succ, ih, Nat.add_lt_add_iff_right]
      congr 2
      rw [Nat.add_right_comm, Nat.add_assoc]

theorem readBytes_congr {m m' : Memory} {a n : Nat} (h : ∀ i, i < n → read m (a + i) = read m' (a + i)) :
    readBytes m a n = readBytes m' a n := by
  apply List.ext_getElem?
  intro i
  simp only [getElem?_readBytes]
  split
  · rw [h i ‹_›]
  · rfl

theorem readBytes_below (m : Memory) (n : Nat) : readBytes (below n m) 0 n = readBytes m 0 n :=
  readBytes_congr fun i hi => read_eq_of_get_eq (by rw [get_below, if_pos (by omega)])

theorem take_readBytes (m : Memory) (a n k : Nat) (h : k ≤ n) :
    (readBytes m a n).take k = readBytes m a k := by
  apply List.ext_getElem?
  intro i
  simp only [List.getElem?_take, getElem?_readBytes]
  by_cases hi : i < k
  · rw [if_pos hi, if_pos hi, if_pos (by omega)]
  · rw [if_neg hi, if_neg hi]

end Memory

/-- The byte copy of step S2, said once: inside the buffer space it always succeeds, writes exactly the bytes it is
given at rising indices, keeps the canonical form, and lists nothing beyond what it wrote and what was listed. -/
theorem memWriteBytes_spec (cap : Nat) (bytes : List Byte) (m : Memory) (addr : Nat)
    (hfit : addr + bytes.length ≤ cap) :
    ∃ m', memWriteBytes cap m addr bytes = .ok m' ∧
      (∀ a, Memory.get m' a =
        if addr ≤ a ∧ a < addr + bytes.length then bytes[a - addr]? else Memory.get m a) ∧
      (Memory.wf cap m → Memory.wf cap m') ∧
      ∀ p ∈ m', p ∈ m ∨ p.1 < addr + bytes.length := by
  induction bytes generalizing m addr with
  | nil =>
    refine ⟨m, rfl, fun a => ?_, id, fun p hp => .inl hp⟩
    rw [if_neg (by simp)]
  | cons b bs ih =>
    have hlen : (b :: bs).length = bs.length + 1 := rfl
    have ha : addr < cap := by omega
    obtain ⟨m', hw, hget, hwf, hmem⟩ := ih (Memory.set m addr b) (addr + 1) (by omega)
    refine ⟨m', by simp [memWriteBytes, memWrite, ha, hw], fun a => ?_,
      fun h => hwf (Memory.wf_set h ha), fun p hp => ?_⟩
    case refine_2 =>
      rcases hmem p hp with h | h
      · rcases Memory.mem_set h with rfl | h
        · exact .inr (by simp only at *; omega)
        · exact .inl h
      · exact .inr (by omega)
    rw [hget a, Memory.get_set m addr b a]
    by_cases h0 : a = addr
    · subst h0; simp
    · by_cases hin : addr + 1 ≤ a ∧ a < addr + 1 + bs.length
      · rw [if_pos hin, if_pos (by omega)]
        obtain ⟨j, rfl⟩ : ∃ j, a = addr + 1 + j := ⟨a - (addr + 1), by omega⟩
        have e1 : addr + 1 + j - (addr + 1) = j := by omega
        have e2 : addr + 1 + j - addr = j + 1 := by omega
        rw [e1, e2, List.getElem?_cons_succ]
      · rw [if_neg hin, if_neg h0, if_neg (by omega)]

end Sys2Proof.Machine
end

