-- ==== Sys2Proof/Laws/Process.lean ====
section
/-! SUPPORT. Process laws: what step S2 leaves, and PROCESS as one equation over the gathered window. Later proofs cite these and do not unfold the steps. -/

namespace Sys2Proof.Machine

@[simp] theorem State.length_window (s : State) : s.window.length = s.used := by simp [State.window]

theorem State.length_kept (s : State) : s.kept.length = s.before := by
  unfold State.kept State.before; split <;> simp

theorem State.length_gathered (s : State) (chunk : List Byte) (hb : s.before ≤ s.cap) :
    (s.gathered chunk).length = s.before + s.room chunk := by
  simp only [State.gathered, List.length_take, List.length_append, State.length_kept, State.room]
  omega

theorem State.before_of_complete {s : State} (h : s.complete = true) : s.before = 0 := by simp [State.before, h]
theorem State.before_of_not_complete {s : State} (h : s.complete = false) : s.before = s.used := by
  simp [State.before, h]
theorem State.kept_of_complete {s : State} (h : s.complete = true) : s.kept = [] := by simp [State.kept, h]
theorem State.kept_of_not_complete {s : State} (h : s.complete = false) : s.kept = s.window := by
  simp [State.kept, h]

theorem State.gathered_prefix_kept (s : State) (chunk : List Byte) (hb : s.before ≤ s.cap) :
    (s.gathered chunk).take s.before = s.kept := by
  rw [State.gathered, List.take_take, Nat.min_eq_left hb, List.take_append_of_le_length (by rw [State.length_kept]),
    List.take_of_length_le (by rw [State.length_kept])]

/-- What step S2 of `PROCESS chunk` leaves when `m` is the memory it wrote. -/
def State.appended (s : State) (chunk : List Byte) (m : Memory) : State :=
  { s with buf := m, used := s.before + s.room chunk, complete := false, packet := none, epoch := s.epoch + 1 }

/-- What PROCESS answers once step S2 has left memory `m`, over the gathered window. -/
def processOutcome (c : Contract) (chunk : List Byte) (s : State) (m : Memory) : Host.Outcome State Fault Refusal :=
  match c.length (s.gathered chunk) with
  | .err .notEnoughData =>
    .next ((s.appended chunk m).returns (.process (.err .notEnoughData (s.room chunk))))
  | .err e => .next ((s.appended chunk m).empty.returns (.process (.err e (s.room chunk))))
  | .ok a =>
    if (s.gathered chunk).length < a then
      .next ((s.appended chunk m).returns (.process (.err .notEnoughData (s.room chunk))))
    else if a < s.before then .fault .negativeLeftoverIndex
    else
      match c.header ((s.gathered chunk).take a) with
      | .err e => .next ((s.appended chunk m).empty.returns (.process (.err e (a - s.before))))
      | .ok h =>
        match c.payload ((s.gathered chunk).take a) with
        | .err e => .next ((s.appended chunk m).empty.returns (.process (.err e (a - s.before))))
        | .ok (off, plen) =>
          .next { (s.appended chunk m).claim a with
            packet := some ⟨h, off, plen⟩
            out := .process (.ok ⟨h, off, plen⟩ (a - s.before) (a - s.before)) }

theorem State.wf_keptBuf (s : State) (h : Memory.wf s.cap s.buf) : Memory.wf s.cap s.keptBuf := by
  unfold State.keptBuf; split
  · exact Memory.wf_nil _
  · exact h

/-- A byte kept from before reads as it did. -/
theorem State.get_keptBuf (s : State) {a : Nat} (h : a < s.before) : Memory.get s.keptBuf a = Memory.get s.buf a := by
  unfold State.keptBuf State.before at *; split at h
  · omega
  · simp_all

/-- What step S2 did to the memory. -/
structure Appends (s : State) (chunk : List Byte) (m : Memory) : Prop where
  get : ∀ a, Memory.get m a =
    if s.before ≤ a ∧ a < s.before + s.room chunk then chunk[a - s.before]? else Memory.get s.keptBuf a
  wf : Memory.wf s.cap s.buf → Memory.wf s.cap m
  mem : ∀ p ∈ m, p ∈ s.keptBuf ∨ p.1 < s.before + s.room chunk
  window : Memory.readBytes m 0 (s.before + s.room chunk) = s.gathered chunk

theorem length_taken (room : Nat) (chunk : List Byte) : (taken room chunk).length = min room chunk.length := by
  simp [taken]

theorem readBytes_append (s : State) (chunk : List Byte) (m : Memory) (hb : s.before ≤ s.cap)
    (h : ∀ a, Memory.get m a =
      if s.before ≤ a ∧ a < s.before + s.room chunk then chunk[a - s.before]? else Memory.get s.keptBuf a) :
    Memory.readBytes m 0 (s.before + s.room chunk) = s.gathered chunk := by
  have hread : ∀ a, a < s.before → Memory.read m a = Memory.read s.keptBuf a := fun a ha =>
    Memory.read_eq_of_get_eq (by rw [h a, if_neg (by omega)])
  have hkept : Memory.readBytes m 0 s.before = s.kept := by
    unfold State.kept State.before State.keptBuf at *
    split
    · simp [Memory.readBytes]
    · simp_all only [Bool.not_eq_true, Bool.false_eq_true, ↓reduceIte, State.window]
      exact Memory.readBytes_congr fun i hi => hread _ (by omega)
  have hk : s.room chunk ≤ s.cap - s.before := Nat.min_le_left _ _
  have hn : s.room chunk ≤ chunk.length := Nat.min_le_right _ _
  apply List.ext_getElem?
  intro i
  rw [Memory.getElem?_readBytes, State.gathered, List.getElem?_take, Nat.zero_add]
  by_cases hi : i < s.before
  · have := congrArg (fun l => l[i]?) hkept
    simp only [Memory.getElem?_readBytes, hi, if_true, Nat.zero_add] at this
    rw [if_pos (by omega), if_pos (by omega), List.getElem?_append_left (by rw [State.length_kept]; exact hi), ← this]
  · by_cases hi2 : i < s.before + s.room chunk
    · have hlt : i - s.before < chunk.length := by omega
      rw [if_pos hi2, if_pos (by omega), List.getElem?_append_right (by rw [State.length_kept]; omega),
        State.length_kept, Memory.read, h i, if_pos ⟨by omega, hi2⟩, List.getElem?_eq_getElem hlt]
      rfl
    · rw [if_neg hi2]
      split
      · rw [List.getElem?_eq_none]
        rw [List.length_append, State.length_kept]
        unfold State.room at *
        omega
      · rfl

/-- Steps S1 and S2 together: with `USED` in bounds they always succeed. -/
theorem append_spec (s : State) (chunk : List Byte) (hb : s.before ≤ s.cap) :
    ∃ m, s.startOperation.supersede.append chunk = .ok (s.appended chunk m) ∧ Appends s chunk m := by
  obtain ⟨m, hw, hget, hwf, hmem⟩ := memWriteBytes_spec s.cap (taken (s.cap - s.before) chunk) s.keptBuf s.before (by
    rw [length_taken]; omega)
  have hlen : (taken (s.cap - s.before) chunk).length = s.room chunk := length_taken _ _
  have hget' : ∀ a, Memory.get m a =
      if s.before ≤ a ∧ a < s.before + s.room chunk then chunk[a - s.before]? else Memory.get s.keptBuf a := by
    intro a
    rw [hget a, hlen]
    split
    · rw [taken, List.getElem?_take, if_pos]
      have : s.room chunk = min (s.cap - s.before) chunk.length := rfl
      omega
    · rfl
  refine ⟨m, ?_, hget', fun h => hwf (s.wf_keptBuf h), fun p hp => hlen ▸ hmem p hp, readBytes_append s chunk m hb hget'⟩
  unfold State.append
  simp only [State.supersede_cap, State.startOperation_cap, State.supersede_buf, State.keptBuf_startOperation,
    State.supersede_used, State.before_startOperation, hw, hlen]
  unfold State.supersede State.appended State.empty State.startOperation
  cases s.complete <;> simp

theorem memRead_appended (s : State) (chunk : List Byte) (m : Memory) (hb : s.before ≤ s.cap)
    (h : Appends s chunk m) :
    memRead s.cap m 0 (s.before + s.room chunk) = .ok (s.gathered chunk) := by
  have : s.room chunk ≤ s.cap - s.before := Nat.min_le_left _ _
  rw [memRead, if_pos (by omega), h.window]

/-- PROCESS as one equation: step S2 appends, then the contract decides over the gathered window. -/
theorem processWith_eq (c : Contract) (chunk : List Byte) (s : State) (hb : s.before ≤ s.cap) :
    ∃ m, Appends s chunk m ∧ processWith c chunk s = processOutcome c chunk s m := by
  obtain ⟨m, happ, hm⟩ := append_spec s chunk hb
  refine ⟨m, hm, ?_⟩
  have hlen := State.length_gathered s chunk hb
  have hroom : s.room chunk ≤ s.cap - s.before := Nat.min_le_left _ _
  unfold processWith
  simp only [happ]
  unfold query
  have hread : memRead (s.appended chunk m).cap (s.appended chunk m).buf 0 (s.appended chunk m).used =
      .ok (s.gathered chunk) := memRead_appended s chunk m hb hm
  have hk : (s.appended chunk m).used - s.before = s.room chunk := by
    simp [State.appended]
  simp only [hread, State.supersede_used, State.before_startOperation, hk]
  unfold processOutcome
  cases hl : c.length (s.gathered chunk) with
  | err e => cases e <;> rfl
  | ok a =>
    have hused : (s.appended chunk m).used = (s.gathered chunk).length := by rw [hlen]; rfl
    simp only [hused]
    split
    · rfl
    · split
      · rfl
      · have hread' : memRead ((s.appended chunk m).claim a).cap ((s.appended chunk m).claim a).buf 0
            ((s.appended chunk m).claim a).used = .ok ((s.gathered chunk).take a) := by
          have ha : a ≤ s.before + s.room chunk := by omega
          simp only [State.claim_cap, State.claim_buf, State.claim_used, memRead]
          show (if 0 + a ≤ s.cap then _ else _) = _
          rw [if_pos (by omega), ← hm.window, Memory.take_readBytes _ _ _ _ ha, Memory.readBytes_below]
          rfl
        unfold build
        simp only [hread']
        cases c.header ((s.gathered chunk).take a) with
        | err e => rfl
        | ok h =>
          cases c.payload ((s.gathered chunk).take a) with
          | err e => rfl
          | ok r => rfl

/-- S3 or S4 answers `NotEnoughData` and retains the gathered window. -/
def Undecided (c : Contract) (chunk : List Byte) (s : State) : Prop :=
  c.length (s.gathered chunk) = .err .notEnoughData ∨
    ∃ a, c.length (s.gathered chunk) = .ok a ∧ s.before + s.room chunk < a

/-- S5 is reached with length `a`, and the subtraction is sound. -/
def Claims (c : Contract) (chunk : List Byte) (s : State) (a : Nat) : Prop :=
  c.length (s.gathered chunk) = .ok a ∧ a ≤ s.before + s.room chunk ∧ s.before ≤ a

/-- S6 fails with `e`, `HEADER` first. -/
def BuildFails (c : Contract) (w : List Byte) (e : Err) : Prop :=
  c.header w = .err e ∨ ((∃ h, c.header w = .ok h) ∧ c.payload w = .err e)

theorem processWith_of_undecided {c : Contract} {chunk : List Byte} {s : State} (hb : s.before ≤ s.cap)
    (h : Undecided c chunk s) :
    ∃ m, Appends s chunk m ∧ processWith c chunk s =
      .next ((s.appended chunk m).returns (.process (.err .notEnoughData (s.room chunk)))) := by
  obtain ⟨m, hm, he⟩ := processWith_eq c chunk s hb
  refine ⟨m, hm, he.trans ?_⟩
  unfold processOutcome
  rcases h with h | ⟨a, h, ha⟩
  · simp only [h]
  · simp only [h, State.length_gathered s chunk hb, if_pos ha]

theorem processWith_of_length_error {c : Contract} {chunk : List Byte} {s : State} {e : Err} (hb : s.before ≤ s.cap)
    (h : c.length (s.gathered chunk) = .err e) (he : e ≠ .notEnoughData) :
    ∃ m, Appends s chunk m ∧ processWith c chunk s =
      .next ((s.appended chunk m).empty.returns (.process (.err e (s.room chunk)))) := by
  obtain ⟨m, hm, heq⟩ := processWith_eq c chunk s hb
  refine ⟨m, hm, heq.trans ?_⟩
  unfold processOutcome
  cases e <;> simp_all

theorem processWith_of_build_error {c : Contract} {chunk : List Byte} {s : State} {a : Nat} {e : Err}
    (hb : s.before ≤ s.cap) (h : Claims c chunk s a) (hf : BuildFails c ((s.gathered chunk).take a) e) :
    ∃ m, Appends s chunk m ∧ processWith c chunk s =
      .next ((s.appended chunk m).empty.returns (.process (.err e (a - s.before)))) := by
  obtain ⟨m, hm, heq⟩ := processWith_eq c chunk s hb
  obtain ⟨hl, hle, hge⟩ := h
  refine ⟨m, hm, heq.trans ?_⟩
  unfold processOutcome
  simp only [hl, State.length_gathered s chunk hb, if_neg (Nat.not_lt.mpr hle), if_neg (Nat.not_lt.mpr hge)]
  rcases hf with hf | ⟨⟨hd, hh⟩, hf⟩
  · simp only [hf]
  · simp only [hh, hf]

theorem processWith_of_packet {c : Contract} {chunk : List Byte} {s : State} {a off plen : Nat} {hd : Header}
    (hb : s.before ≤ s.cap) (h : Claims c chunk s a) (hh : c.header ((s.gathered chunk).take a) = .ok hd)
    (hp : c.payload ((s.gathered chunk).take a) = .ok (off, plen)) :
    ∃ m, Appends s chunk m ∧ processWith c chunk s =
      .next { (s.appended chunk m).claim a with
        packet := some ⟨hd, off, plen⟩, out := .process (.ok ⟨hd, off, plen⟩ (a - s.before) (a - s.before)) } := by
  obtain ⟨m, hm, heq⟩ := processWith_eq c chunk s hb
  obtain ⟨hl, hle, hge⟩ := h
  refine ⟨m, hm, heq.trans ?_⟩
  unfold processOutcome
  simp only [hl, State.length_gathered s chunk hb, if_neg (Nat.not_lt.mpr hle), if_neg (Nat.not_lt.mpr hge), hh, hp]

theorem processWith_of_short_length {c : Contract} {chunk : List Byte} {s : State} {a : Nat} (hb : s.before ≤ s.cap)
    (h : c.length (s.gathered chunk) = .ok a) (ha : a < s.before) :
    processWith c chunk s = .fault .negativeLeftoverIndex := by
  obtain ⟨m, -, heq⟩ := processWith_eq c chunk s hb
  rw [heq, processOutcome]
  simp only [h, State.length_gathered s chunk hb, if_pos ha]
  rw [if_neg (by omega)]

/-- With `USED` past the capacity, in a state no run reaches, PROCESS stops. -/
theorem processWith_out_of_range (c : Contract) (chunk : List Byte) (s : State) (hb : s.cap < s.before) :
    processWith c chunk s = .fault .bufferIndexOutOfRange := by
  have h0 : s.cap - s.before = 0 := by omega
  have happ : s.startOperation.supersede.append chunk = .ok s.startOperation.supersede := by
    unfold State.append
    simp only [State.supersede_cap, State.startOperation_cap, State.supersede_used, State.before_startOperation, h0,
      taken, Nat.zero_min, List.take_zero, memWriteBytes]
    rw [List.length_nil, Nat.add_zero]
    have hu : s.before = s.startOperation.supersede.used := by simp
    have hcap : s.cap = s.startOperation.supersede.cap := by simp
    rw [hu, hcap]
  unfold processWith
  simp only [happ]
  unfold query
  have : ¬ (0 + s.startOperation.supersede.used ≤ s.startOperation.supersede.cap) := by simp; omega
  simp only [memRead, if_neg this]

/-- Everything PROCESS can do, said once. -/
inductive ProcessAnswers (c : Contract) (chunk : List Byte) (s : State) : Host.Outcome State Fault Refusal → Prop
  | outOfRange : s.cap < s.before → ProcessAnswers c chunk s (.fault .bufferIndexOutOfRange)
  | retained (m : Memory) : s.before ≤ s.cap → Appends s chunk m → Undecided c chunk s →
      ProcessAnswers c chunk s
        (.next ((s.appended chunk m).returns (.process (.err .notEnoughData (s.room chunk)))))
  | discarded (m : Memory) (e : Err) : s.before ≤ s.cap → Appends s chunk m →
      c.length (s.gathered chunk) = .err e → e ≠ .notEnoughData →
      ProcessAnswers c chunk s (.next ((s.appended chunk m).empty.returns (.process (.err e (s.room chunk)))))
  | shortLength (a : Nat) : s.before ≤ s.cap → c.length (s.gathered chunk) = .ok a → a < s.before →
      ProcessAnswers c chunk s (.fault .negativeLeftoverIndex)
  | unbuilt (m : Memory) (a : Nat) (e : Err) : s.before ≤ s.cap → Appends s chunk m → Claims c chunk s a →
      BuildFails c ((s.gathered chunk).take a) e →
      ProcessAnswers c chunk s (.next ((s.appended chunk m).empty.returns (.process (.err e (a - s.before)))))
  | packet (m : Memory) (a : Nat) (hd : Header) (off plen : Nat) : s.before ≤ s.cap → Appends s chunk m →
      Claims c chunk s a → c.header ((s.gathered chunk).take a) = .ok hd →
      c.payload ((s.gathered chunk).take a) = .ok (off, plen) →
      ProcessAnswers c chunk s (.next { (s.appended chunk m).claim a with
        packet := some ⟨hd, off, plen⟩, out := .process (.ok ⟨hd, off, plen⟩ (a - s.before) (a - s.before)) })

theorem processWith_answers (c : Contract) (chunk : List Byte) (s : State) :
    ProcessAnswers c chunk s (processWith c chunk s) := by
  by_cases hb : s.before ≤ s.cap
  · cases hl : c.length (s.gathered chunk) with
    | err e =>
      by_cases he : e = .notEnoughData
      · subst he
        obtain ⟨m, hm, heq⟩ := processWith_of_undecided hb (.inl hl)
        exact heq ▸ .retained m hb hm (.inl hl)
      · obtain ⟨m, hm, heq⟩ := processWith_of_length_error hb hl he
        exact heq ▸ .discarded m e hb hm hl he
    | ok a =>
      by_cases ha : s.before + s.room chunk < a
      · obtain ⟨m, hm, heq⟩ := processWith_of_undecided hb (.inr ⟨a, hl, ha⟩)
        exact heq ▸ .retained m hb hm (.inr ⟨a, hl, ha⟩)
      · by_cases hs : a < s.before
        · exact processWith_of_short_length hb hl hs ▸ .shortLength a hb hl hs
        · have hc : Claims c chunk s a := ⟨hl, by omega, by omega⟩
          cases hh : c.header ((s.gathered chunk).take a) with
          | err e =>
            obtain ⟨m, hm, heq⟩ := processWith_of_build_error hb hc (.inl hh)
            exact heq ▸ .unbuilt m a e hb hm hc (.inl hh)
          | ok hd =>
            cases hp : c.payload ((s.gathered chunk).take a) with
            | err e =>
              obtain ⟨m, hm, heq⟩ := processWith_of_build_error hb hc (.inr ⟨⟨hd, hh⟩, hp⟩)
              exact heq ▸ .unbuilt m a e hb hm hc (.inr ⟨⟨hd, hh⟩, hp⟩)
            | ok r =>
              obtain ⟨off, plen⟩ := r
              obtain ⟨m, hm, heq⟩ := processWith_of_packet hb hc hh hp
              exact heq ▸ .packet m a hd off plen hb hm hc hh hp
  · exact processWith_out_of_range c chunk s (by omega) ▸ .outOfRange (by omega)

/-- The inversion: if PROCESS answers a next state, it is one of these. -/
theorem processWith_next {c : Contract} {chunk : List Byte} {s t : State} (h : processWith c chunk s = .next t) :
    s.before ≤ s.cap ∧ ∃ m, Appends s chunk m ∧
      ((Undecided c chunk s ∧
          t = (s.appended chunk m).returns (.process (.err .notEnoughData (s.room chunk)))) ∨
       (∃ e, e ≠ .notEnoughData ∧ c.length (s.gathered chunk) = .err e ∧
          t = (s.appended chunk m).empty.returns (.process (.err e (s.room chunk)))) ∨
       (∃ a e, Claims c chunk s a ∧ BuildFails c ((s.gathered chunk).take a) e ∧
          t = (s.appended chunk m).empty.returns (.process (.err e (a - s.before)))) ∨
       (∃ a hd off plen, Claims c chunk s a ∧ c.header ((s.gathered chunk).take a) = .ok hd ∧
          c.payload ((s.gathered chunk).take a) = .ok (off, plen) ∧
          t = { (s.appended chunk m).claim a with
            packet := some ⟨hd, off, plen⟩
            out := .process (.ok ⟨hd, off, plen⟩ (a - s.before) (a - s.before)) })) := by
  have ha := processWith_answers c chunk s
  rw [h] at ha
  cases ha with
  | retained m hb hm hu => exact ⟨hb, m, hm, .inl ⟨hu, rfl⟩⟩
  | discarded m e hb hm hl he => exact ⟨hb, m, hm, .inr (.inl ⟨e, he, hl, rfl⟩)⟩
  | unbuilt m a e hb hm hc hf => exact ⟨hb, m, hm, .inr (.inr (.inl ⟨a, e, hc, hf, rfl⟩))⟩
  | packet m a hd off plen hb hm hc hh hp =>
    exact ⟨hb, m, hm, .inr (.inr (.inr ⟨a, hd, off, plen, hc, hh, hp, rfl⟩))⟩

/-! ## The window that each answer leaves -/

theorem Appends.window_appended {s : State} {chunk : List Byte} {m : Memory} (h : Appends s chunk m) :
    (s.appended chunk m).window = s.gathered chunk := h.window

theorem Appends.window_claim {s : State} {chunk : List Byte} {m : Memory} (h : Appends s chunk m) {a : Nat}
    (ha : a ≤ s.before + s.room chunk) : ((s.appended chunk m).claim a).window = (s.gathered chunk).take a := by
  rw [← h.window, Memory.take_readBytes _ _ _ _ ha, ← Memory.readBytes_below]
  rfl

end Sys2Proof.Machine
end

