-- ==== Sys2Proof/Laws/Fields.lean ====
section
/-! SUPPORT. Field laws: big-endian assembly and its inverse, and the STREAM operations on a window whose bytes are known. -/

namespace Sys2Proof

theorem toNat_be16 (hi lo : Byte) : (be16 hi lo).toNat = hi.toNat * 256 + lo.toNat := by
  have h := Nat.shiftLeft_add_eq_or_of_lt lo.isLt hi.toNat
  unfold be16
  rw [BitVec.toNat_append, ← h, Nat.shiftLeft_eq]

theorem be16_hiByte_loByte (h : Half) : be16 (hiByte h) (loByte h) = h := by
  apply BitVec.eq_of_toNat_eq
  rw [toNat_be16]
  have := h.isLt
  simp only [hiByte, loByte, BitVec.extractLsb'_toNat, Nat.shiftRight_eq_div_pow]
  omega

theorem hiByte_be16 (hi lo : Byte) : hiByte (be16 hi lo) = hi := by
  apply BitVec.eq_of_toNat_eq
  have := toNat_be16 hi lo
  have := hi.isLt; have := lo.isLt
  simp only [hiByte, BitVec.extractLsb'_toNat, Nat.shiftRight_eq_div_pow]
  omega

theorem loByte_be16 (hi lo : Byte) : loByte (be16 hi lo) = lo := by
  apply BitVec.eq_of_toNat_eq
  have := toNat_be16 hi lo
  have := hi.isLt; have := lo.isLt
  simp only [loByte, BitVec.extractLsb'_toNat, Nat.shiftRight_eq_div_pow]
  omega

namespace Machine

theorem be16At_of_getElem? {w : List Byte} {i : Nat} {hi lo : Byte} (h : w[i]? = some hi) (l : w[i + 1]? = some lo) :
    be16At w i = some (be16 hi lo) := by
  simp [be16At, h, l]

/-- A 16-bit field depends on its two bytes only. -/
theorem be16At_congr {w w' : List Byte} {i : Nat} (h : w[i]? = w'[i]?) (l : w[i + 1]? = w'[i + 1]?) :
    be16At w i = be16At w' i := by
  simp [be16At, h, l]

theorem length_gt_of_getElem? {w : List Byte} {i : Nat} {b : Byte} (h : w[i]? = some b) : i < w.length :=
  (List.getElem?_eq_some_iff.mp h).1

/-- `LENGTH.STREAM` on a window that holds the length field. -/
theorem streamLength_of_bytes {w : List Byte} {hi lo : Byte} (h : w[4]? = some hi) (l : w[5]? = some lo) :
    streamLength w = if hi.toNat * 256 + lo.toNat + 6 > 260 then .err .badLength
      else .ok (hi.toNat * 256 + lo.toNat + 6) := by
  have := length_gt_of_getElem? l
  rw [streamLength, if_neg (by simp [lenMin]; omega), declaredLength, be16At_of_getElem? h l]
  simp only [boundedLength, toNat_be16, lenBias, Config.maxAdu]

theorem streamLength_of_short {w : List Byte} (h : w.length < 6) : streamLength w = .err .notEnoughData := by
  rw [streamLength, if_pos (by simpa [lenMin] using h)]

theorem streamHeader_of_short {w : List Byte} (h : w.length < 7) : streamHeader w = .err .notEnoughData := by
  rw [streamHeader, if_pos (by simpa [hdrSize] using h)]

theorem streamValidate_of_short {w : List Byte} (h : w.length < 7) : streamValidate w = .err .notEnoughData := by
  rw [streamValidate, if_pos (by simpa [hdrSize] using h)]

/-- A window with a whole header is seven bytes and the rest. -/
theorem exists_seven {w : List Byte} (h : 7 ≤ w.length) :
    ∃ b0 b1 b2 b3 b4 b5 b6 rest, w = b0 :: b1 :: b2 :: b3 :: b4 :: b5 :: b6 :: rest := by
  rcases w with _ | ⟨b0, _ | ⟨b1, _ | ⟨b2, _ | ⟨b3, _ | ⟨b4, _ | ⟨b5, _ | ⟨b6, rest⟩⟩⟩⟩⟩⟩⟩ <;> simp at h
  exact ⟨b0, b1, b2, b3, b4, b5, b6, rest, rfl⟩

/-- A window of six bytes or more holds the length field. -/
theorem exists_length_field {w : List Byte} (h : 6 ≤ w.length) : ∃ hi lo, w[4]? = some hi ∧ w[5]? = some lo :=
  ⟨w[4], w[5], List.getElem?_eq_getElem _, List.getElem?_eq_getElem _⟩

theorem streamHeader_of_bytes (b0 b1 b2 b3 b4 b5 b6 : Byte) (rest : List Byte) :
    streamHeader (b0 :: b1 :: b2 :: b3 :: b4 :: b5 :: b6 :: rest) =
      .ok (.stream (be16 b0 b1) (be16 b2 b3) (be16 b4 b5) b6) := by
  rw [streamHeader, if_neg (by simp [hdrSize])]
  rfl

theorem streamValidate_of_bytes {w : List Byte} {hi lo : Byte} (hw : 7 ≤ w.length) (h : w[4]? = some hi)
    (l : w[5]? = some lo) :
    streamValidate w = if w.length < hi.toNat * 256 + lo.toNat + 6 then .err .notEnoughData else .ok () := by
  rw [streamValidate, if_neg (by simp [hdrSize]; omega), declaredLength, be16At_of_getElem? h l]
  simp only [toNat_be16, lenBias]

theorem streamPayload_of_bytes {w : List Byte} {hi lo : Byte} (hw : 7 ≤ w.length) (h : w[4]? = some hi)
    (l : w[5]? = some lo) :
    streamPayload w = if w.length < hi.toNat * 256 + lo.toNat + 6 then .err .notEnoughData
      else .ok (7, w.length - 7) := by
  rw [streamPayload, streamValidate_of_bytes hw h l]
  split <;> simp [payloadFrom, hdrSize, trailer]

end Machine

end Sys2Proof
end

