-- ==== Sys2Proof/Laws/PerInstr.lean ====
section
/-! SUPPORT. PerInstr: for every instruction, some strap under which it is well formed: no row of the opcode table belongs to no variant (30_encoding.md R71). -/

namespace Sys2Proof.Laws.WellStrapped

/-- Some instance, strapped one way or the other, has this instruction. -/
def Statement (i : Instr) : Prop := ∃ v, i.wf v = true

theorem reset : Statement .reset := ⟨.stream, rfl⟩
theorem process (chunk : List Byte) : Statement (.process chunk) := ⟨.stream, rfl⟩
theorem lengthStream (w : List Byte) : Statement (.lengthStream w) := ⟨.stream, rfl⟩
theorem headerStream (w : List Byte) : Statement (.headerStream w) := ⟨.stream, rfl⟩
theorem validateStream (w : List Byte) : Statement (.validateStream w) := ⟨.stream, rfl⟩
theorem payloadStream (w : List Byte) : Statement (.payloadStream w) := ⟨.stream, rfl⟩
theorem lengthSerial (w : List Byte) : Statement (.lengthSerial w) := ⟨.serial, rfl⟩
theorem headerSerial (w : List Byte) : Statement (.headerSerial w) := ⟨.serial, rfl⟩
theorem validateSerial (w : List Byte) : Statement (.validateSerial w) := ⟨.serial, rfl⟩
theorem payloadSerial (w : List Byte) : Statement (.payloadSerial w) := ⟨.serial, rfl⟩
theorem aduStreamHeader (t p l : Half) (u : Byte) : Statement (.aduStreamHeader t p l u) := ⟨.stream, rfl⟩
theorem aduSerialHeader (a : Byte) : Statement (.aduSerialHeader a) := ⟨.serial, rfl⟩

end Sys2Proof.Laws.WellStrapped
end

