-- ==== Sys2Proof/Laws/Step.lean ====
section
/-! SUPPORT. Step laws: what a step does by the head of the script, and a run by its first step. -/

namespace Sys2Proof.Machine

theorem step_of_idle {s : State} (h : s.script = []) : step s = .next s := by simp [step, h]

theorem step_of_view {s : State} {epoch : Nat} {rest : List Request} (h : s.script = .view epoch :: rest) :
    step s = viewPacket epoch { s with script := rest } := by simp [step, h]

theorem step_of_decoded {s : State} {e : Encoded} {rest : List Request} {i : Instr} (h : s.script = .op e :: rest)
    (hd : decode s.variant e = .ok i) : step s = exec i { s with script := rest } := by simp [step, h, hd]

theorem step_of_rejected {s : State} {e : Encoded} {rest : List Request} {d : DecodeError}
    (h : s.script = .op e :: rest) (hd : decode s.variant e = .error d) : step s = .refused (refusalOf d) := by
  simp [step, h, hd]

/-- A step, by the head of the script. -/
theorem step_cases (s : State) :
    (s.script = [] ∧ step s = .next s) ∨
    (∃ epoch rest, s.script = .view epoch :: rest ∧ step s = viewPacket epoch { s with script := rest }) ∨
    (∃ e rest i, s.script = .op e :: rest ∧ decode s.variant e = .ok i ∧
      step s = exec i { s with script := rest }) ∨
    (∃ e rest d, s.script = .op e :: rest ∧ decode s.variant e = .error d ∧ step s = .refused (refusalOf d)) := by
  cases hs : s.script with
  | nil => exact .inl ⟨rfl, step_of_idle hs⟩
  | cons r rest =>
    cases r with
    | view epoch => exact .inr (.inl ⟨epoch, rest, rfl, step_of_view hs⟩)
    | op e =>
      cases hd : decode s.variant e with
      | ok i => exact .inr (.inr (.inl ⟨e, rest, i, rfl, hd, step_of_decoded hs hd⟩))
      | error d => exact .inr (.inr (.inr ⟨e, rest, d, rfl, hd, step_of_rejected hs hd⟩))

/-- An instruction is RESET, PROCESS, or one that changes the output alone. -/
theorem exec_cases (i : Instr) :
    i = .reset ∨ (∃ chunk, i = .process chunk) ∨ ∃ o : Output, ∀ s, exec i s = .next (s.returns o) := by
  cases i with
  | reset => exact .inl rfl
  | process chunk => exact .inr (.inl ⟨chunk, rfl⟩)
  | lengthStream w => exact .inr (.inr ⟨_, fun _ => rfl⟩)
  | headerStream w => exact .inr (.inr ⟨_, fun _ => rfl⟩)
  | validateStream w => exact .inr (.inr ⟨_, fun _ => rfl⟩)
  | payloadStream w => exact .inr (.inr ⟨_, fun _ => rfl⟩)
  | lengthSerial w => exact .inr (.inr ⟨_, fun _ => rfl⟩)
  | headerSerial w => exact .inr (.inr ⟨_, fun _ => rfl⟩)
  | validateSerial w => exact .inr (.inr ⟨_, fun _ => rfl⟩)
  | payloadSerial w => exact .inr (.inr ⟨_, fun _ => rfl⟩)
  | aduStreamHeader t p l u => exact .inr (.inr ⟨_, fun _ => rfl⟩)
  | aduSerialHeader a => exact .inr (.inr ⟨_, fun _ => rfl⟩)

theorem exec_process (chunk : List Byte) (s : State) :
    exec (.process chunk) s = processWith (contractOf s.variant) chunk s := rfl

theorem maxAdu_contractOf (v : Variant) : (contractOf v).maxAdu = Config.maxAdu v := by cases v <;> rfl

theorem exec_reset_of_fits {s : State} (h : Config.maxAdu s.variant ≤ s.cap) :
    exec .reset s = .next (s.startOperation.empty.returns .none) := by
  show execReset s = _
  rw [execReset, if_neg (by rw [maxAdu_contractOf]; omega)]

theorem exec_reset_of_too_small {s : State} (h : Config.maxAdu s.variant > s.cap) :
    exec .reset s = .fault .capacityTooSmall := by
  show execReset s = _
  rw [execReset, if_pos (by rw [maxAdu_contractOf]; exact h)]

/-- A run of one step more starts with that step. -/
theorem run_succ_of_next {n : Nat} {s t : State} (h : step s = .next t) :
    Sys2Proof.core.run (n + 1) s = Sys2Proof.core.run n t := by
  have h' : Sys2Proof.core.step s = .next t := h
  have hrun : ∀ (M : Host.Core) (s t : M.State), M.step s = .next t → M.run (n + 1) s = M.run n t := by
    intro M s t hst
    rw [Host.Core.run, hst]
  exact hrun _ _ _ h'

end Sys2Proof.Machine
end

