-- ==== Sys2Proof/Tests/Slice0.lean ====
section
/-! SUPPORT. Slice0: the model's own tests. Expected results are those of 95_test_vectors.md or are written out from the spec's encodings; the last part shows, for each statement, values that meet its hypotheses. -/

namespace Sys2Proof.Tests

open Sys2Proof.Machine

/-! ## Well-formedness: a term of the other variant is refused, one of the instance's own is accepted -/

theorem test_wf_lengthStream : (Instr.lengthStream []).wf .serial = false := by decide
theorem test_wf_headerStream : (Instr.headerStream []).wf .serial = false := by decide
theorem test_wf_validateStream : (Instr.validateStream []).wf .serial = false := by decide
theorem test_wf_payloadStream : (Instr.payloadStream []).wf .serial = false := by decide
theorem test_wf_aduStreamHeader : (Instr.aduStreamHeader 1 0 3 9).wf .serial = false := by decide
theorem test_wf_lengthSerial : (Instr.lengthSerial []).wf .stream = false := by decide
theorem test_wf_headerSerial : (Instr.headerSerial []).wf .stream = false := by decide
theorem test_wf_validateSerial : (Instr.validateSerial []).wf .stream = false := by decide
theorem test_wf_payloadSerial : (Instr.payloadSerial []).wf .stream = false := by decide
theorem test_wf_aduSerialHeader : (Instr.aduSerialHeader 17).wf .stream = false := by decide
theorem test_wf_any_variant : (Instr.process []).wf .serial = true ∧ Instr.reset.wf .stream = true := by decide

/-! ## Decoding: words written out from R66 (`VARIANT‖OP`, then operand bytes), R60 and R62 -/

theorem test_decode_reset : decodeKey 0b0000#4 [] = .ok .reset ∧ decodeKey 0b1000#4 [] = .ok .reset := by decide
theorem test_decode_process :
    decodeKey 0b0001#4 [0x00, 0x01] = .ok (.process [0x00, 0x01]) ∧ decodeKey 0b1001#4 [0x11] = .ok (.process [0x11]) := by
  decide
theorem test_decode_lengthStream : decodeKey 0b0010#4 [0, 0, 0, 0, 0, 0xFF] = .ok (.lengthStream [0, 0, 0, 0, 0, 0xFF]) := by
  decide
theorem test_decode_headerStream : decodeKey 0b0011#4 [0x12] = .ok (.headerStream [0x12]) := by decide
theorem test_decode_validateStream : decodeKey 0b0100#4 [0x12] = .ok (.validateStream [0x12]) := by decide
theorem test_decode_payloadStream : decodeKey 0b0101#4 [0x12] = .ok (.payloadStream [0x12]) := by decide
theorem test_decode_lengthSerial : decodeKey 0b1010#4 [0x33] = .ok (.lengthSerial [0x33]) := by decide
theorem test_decode_headerSerial : decodeKey 0b1011#4 [0x11] = .ok (.headerSerial [0x11]) := by decide
theorem test_decode_validateSerial : decodeKey 0b1100#4 [0x11] = .ok (.validateSerial [0x11]) := by decide
theorem test_decode_payloadSerial : decodeKey 0b1101#4 [0x11] = .ok (.payloadSerial [0x11]) := by decide
theorem test_decode_reserved :
    decodeKey 0b0110#4 [] = .error (.reservedCommand 0b110#3) ∧ decodeKey 0b0111#4 [] = .error (.reservedCommand 0b111#3) ∧
    decodeKey 0b1110#4 [] = .error (.reservedCommand 0b110#3) ∧ decodeKey 0b1111#4 [] = .error (.reservedCommand 0b111#3) := by
  decide

/-- The source's header bytes `00 01 00 00 00 03 09`, and vector 2.2 #5 for the order of every field. -/
theorem test_decode_aduStreamHeader :
    decodeFrame .stream [0x00, 0x01, 0x00, 0x00, 0x00, 0x03, 0x09] = .ok (.aduStreamHeader 1 0 3 9) ∧
    decodeFrame .stream [0x01, 0x00, 0x02, 0x00, 0x03, 0x00, 0x04] = .ok (.aduStreamHeader 256 512 768 4) := by decide
theorem test_decode_aduSerialHeader : decodeFrame .serial [0x11] = .ok (.aduSerialHeader 17) := by decide
theorem test_decode_not_a_frame :
    decodeFrame .stream [0x00, 0x01, 0x00, 0x00, 0x00, 0x03] = .error .notAFrame ∧
    decodeFrame .serial [] = .error .notAFrame := by decide

/-- R60's bit 55 is the first bit of the header; a command word's operand bytes follow its key (log 8). -/
theorem test_decodeTableWord :
    decodeTableWord 56 0x123456789ABCDE = some (.aduStreamHeader 0x1234 0x5678 0x9ABC 0xDE) ∧
    decodeTableWord 24 0xBBAA01 = some (.process [0xAA, 0xBB]) ∧
    decodeTableWord 8 0x0A = some (.lengthSerial []) ∧ decodeTableWord 8 0x06 = none := by decide

/-! ## The named ADUs of 95_test_vectors.md, and small states -/

def aduA : List Byte := [0x00, 0x01, 0x00, 0x00, 0x00, 0x03, 0x09, 0xAA, 0xBB]
def aduC : List Byte := [0x12, 0x34, 0x00, 0x00, 0x00, 0x01, 0xFF]
def aduM : List Byte := [0x00, 0x07, 0x00, 0x00, 0x00, 0xFE, 0x01] ++ List.replicate 253 0x5A

/-- A memory with these bytes from an index up. -/
def cells : Nat → List Byte → Memory
  | _, [] => []
  | a, b :: bs => (a, b) :: cells (a + 1) bs

/-- A framer of the reference configuration with these bytes buffered. -/
def framer (bytes : List Byte) : State := { State.reset with buf := cells 0 bytes, used := bytes.length }

/-- A framer that holds ADU A and its Packet. -/
def holdingA : State :=
  { framer aduA with complete := true, packet := some ⟨.stream 1 0 3 9, 7, 2⟩, epoch := 1 }

/-- What a vector shows: the output and the state after. -/
def seen : Host.Outcome State Fault Refusal → Option (Output × Nat × Bool)
  | .next t => some (t.out, t.used, t.complete)
  | .fault _ => none
  | .refused _ => none

/-- Which fault an operation ended in. -/
def faultOf : Host.Outcome State Fault Refusal → Option Fault
  | .next _ => none
  | .fault f => some f
  | .refused _ => none

/-! ## Vectors, at most two for an instruction -/

/-- 2.7 #2. -/
theorem test_reset_partial : seen (exec .reset (framer [0x00, 0x01, 0x00, 0x00, 0x00])) = some (.none, 0, false) := by decide
/-- 2.7 #4. -/
theorem test_reset_capacity : faultOf (exec .reset { State.reset with cap := 256 }) = some .capacityTooSmall := by decide

/-- 2.6 #4. -/
theorem test_process_last_byte :
    seen (exec (.process [0xBB]) (framer [0x00, 0x01, 0x00, 0x00, 0x00, 0x03, 0x09, 0xAA])) =
      some (.process (.ok ⟨.stream 1 0 3 9, 7, 2⟩ 1 1), 9, true) := by decide
/-- P2 step 2 shape (the cursor sampled after S1), 2.6 #8, then P6 step 1. -/
theorem test_process_supersedes_and_zero_length :
    seen (exec (.process aduC) holdingA) =
      some (.process (.ok ⟨.stream 4660 0 1 255, 7, 0⟩ 7 7), 7, true) ∧
    seen (exec (.process [0x00, 0x09, 0x00, 0x00, 0x00, 0x00, 0x55]) (framer [])) =
      some (.process (.err .notEnoughData 6), 0, false) := by decide

/-- 2.1 #11 and #12: L = 254 and L = 255. -/
theorem test_lengthStream_bound :
    streamLength [0, 0, 0, 0, 0, 0xFE] = .ok 260 ∧ streamLength [0, 0, 0, 0, 0, 0xFF] = .err .badLength := by decide
/-- 2.1 #14 (byte order) and #16 (no wrap-around). -/
theorem test_lengthStream_wide :
    streamLength [0, 0, 0, 0, 0x03, 0x00] = .err .badLength ∧ streamLength [0, 0, 0, 0, 0xFF, 0xFF] = .err .badLength := by
  decide
/-- 2.2 #5 and #2. -/
theorem test_headerStream :
    streamHeader [0x01, 0x00, 0x02, 0x00, 0x03, 0x00, 0x04] = .ok (.stream 256 512 768 4) ∧
    streamHeader [0x00, 0x01, 0x00, 0x00, 0x00, 0x03] = .err .notEnoughData := by decide
/-- 2.3 #4, #7 and #8. -/
theorem test_validateStream :
    streamValidate [0x00, 0x01, 0x00, 0x00, 0x00, 0x03, 0x09, 0xAA] = .err .notEnoughData ∧
    streamValidate [0x00, 0x09, 0x00, 0x00, 0x00, 0x00, 0x55] = .ok () ∧
    streamValidate [0x00, 0x05, 0x00, 0x00, 0x00, 0xFF, 0x01, 0x02, 0x03] = .err .notEnoughData := by decide
/-- 2.4 #9 and #5. -/
theorem test_payloadStream :
    streamPayload (aduA ++ [0xCC]) = .ok (7, 3) ∧ streamPayload aduC = .ok (7, 0) := by decide

/-- P10's test doubles for the open parameters; "not a description of any real serial protocol". -/
def lengthT (w : List Byte) : SerialLength :=
  match w with
  | _ :: b :: _ => if b = 0xFF then .badFuncCode else .ok (b.toNat + 4)
  | _ => .notEnoughData

def checkT (w : List Byte) : Bool := decide (w.drop (w.length - 2) = [0xC1, 0xC2])

def serialT : Contract := serialContract lengthT checkT

/-- P10 steps 3 and 4. -/
theorem test_process_serial :
    seen (processWith serialT [0xC2, 0x22] (framer [0x11, 0x01, 0xAA, 0xC1])) =
      some (.process (.ok ⟨.serial 17, 1, 2⟩ 1 1), 5, true) ∧
    seen (processWith serialT [0x22, 0x00, 0xC1, 0xC3] (framer [])) =
      some (.process (.err .badErrorCheck 4), 0, false) := by decide
/-- P10 steps 5 and 6. -/
theorem test_lengthSerial :
    serialLengthOp lengthT [0x33, 0xFF] = .err .badFuncCode ∧ serialLengthOp lengthT [0x33, 0xFD] = .err .badLength := by decide
/-- 2.5 #1 and #3. -/
theorem test_headerSerial :
    serialHeader [] = .err .notEnoughData ∧ serialHeader [0x00, 0xAA, 0xBB] = .ok (.serial 0) := by decide
/-- 2.5 #6 and #9 (there the check is false). -/
theorem test_validateSerial :
    serialValidate (fun _ => true) [0x11, 0xC1] = .err .notEnoughData ∧
    serialValidate (fun _ => false) [0x11, 0xC1, 0xC2] = .err .badErrorCheck := by decide
/-- 2.5 #11 and #10. -/
theorem test_payloadSerial :
    serialPayload checkT [0x11, 0x03, 0x00, 0x6B, 0x00, 0x03, 0xC1, 0xC2] = .ok (1, 5) ∧
    serialPayload checkT [0x11, 0xC1, 0xC2] = .ok (1, 0) := by decide

/-- The fields of R102's worked example, out of the extractor; nothing else changes. -/
theorem test_aduStreamHeader :
    seen (exec (.aduStreamHeader 1 0 3 9) holdingA) = some (.header (.ok (.stream 1 0 3 9)), 9, true) := by decide
theorem test_aduSerialHeader :
    seen (exec (.aduSerialHeader 17) holdingA) = some (.header (.ok (.serial 17)), 9, true) := by decide

/-- 2.8 #5 and #7, the worked examples of R171 and R172. -/
theorem test_pack :
    (match pack [true, false, true, true, false, false, false, false, true] [0xFF, 0xFF, 0xFF] with
      | .ok b => b
      | .error _ => []) = [0x0D, 0x01, 0xFF] := by decide
theorem test_unpack :
    (match unpack [0x0D, 0x01] 9 with
      | .ok b => b
      | .error _ => []) = [true, false, true, true, false, false, false, false, true] := by decide

/-- The view of ADU A's Packet shows `AA BB`; after an empty PROCESS it is dead (P7 step 5). -/
theorem test_view :
    seen (viewPacket 1 holdingA) = some (.view [0xAA, 0xBB], 9, true) ∧
    (match exec (.process []) holdingA with
      | .next t => seen (viewPacket 1 t)
      | _ => some (.none, 0, true)) = none := by decide

/-- A table word placed as the first request after reset runs as that instruction. -/
theorem test_withFetchWord :
    seen (step (State.reset.withFetchWord 16 0x0001)) = some (.process (.err .notEnoughData 1), 1, false) ∧
    seen (step (State.reset.withFetchWord 8 0b1000)) = some (.none, 0, false) := by decide

/-! ## Witnesses: for each statement with hypotheses, values that meet them all together -/

theorem witness_DecodeOfEncode :
    (Instr.lengthStream [1]).wf .stream = true ∧ (Instr.aduSerialHeader 255).wf .serial = true := by decide
theorem witness_EncodeOfDecode :
    decode .serial (.command 0b001#3 [0]) = .ok (.process [0]) ∧ decode .serial (.frame [17]) = .ok (.aduSerialHeader 17) := by
  decide

/-- A framer of the strap STREAM with one request to run. -/
def asked (r : Request) (s : State) : State := { s with script := [r] }

theorem witness_CommandWordSelectsTheOperation :
    (asked (.op (.command 0b110#3 [0])) State.reset).script = [.op (.command 0b110#3 [0])] ∧
    (asked (.op (.command 0b111#3 [])) State.reset).script = [.op (.command 0b111#3 [])] := by decide
/-- The last clause at each of the four keys that no row fits. -/
theorem witness_OpcodeTableDecidesEveryKey :
    decodeKey 0b1101#4 [] = .ok (.payloadSerial []) ∧
    ∀ key ∈ [0b0110#4, 0b0111#4, 0b1110#4, 0b1111#4], ∀ r ∈ opcodeRows, r.fits key = false := by decide
/-- Both clauses: a word that decodes, and each reason why one does not. -/
theorem witness_StepRunsTheDecodedInstruction :
    (asked (processRequest [0]) State.reset).script = [.op (.command 0b001#3 [0])] ∧
    decode State.reset.variant (.command 0b001#3 [0]) = .ok (.process [0]) ∧
    decode State.reset.variant (.command 0b000#3 [0]) = .error .operandNotAllowed ∧
    decode State.reset.variant (.frame [17]) = .error .notAFrame ∧
    decode State.reset.variant (.command 0b111#3 []) = .error (.reservedCommand 0b111#3) := by decide
theorem witness_IdleStepHoldsTheState : State.reset.script = [] := by decide
theorem witness_StepNeverWritesTheStraps :
    (step (asked (processRequest [0]) State.reset)) =
      .next { framer [0] with packet := none, epoch := 1, out := .process (.err .notEnoughData 1) } := rfl

/-- A framer with a partial message, and one that holds a message, have the invariant. -/
theorem partial_inv (script : List Request) : { framer [0x00, 0x01, 0x00] with script := script }.Inv where
  canonical := show Memory.wf 260 (cells 0 [0x00, 0x01, 0x00]) by decide
  written := show ∀ a, a < 3 → (Memory.get (cells 0 [0x00, 0x01, 0x00]) a).isSome by decide
  nothingStale := show ∀ p ∈ cells 0 [0x00, 0x01, 0x00], p.1 < 3 by decide
  inBounds := show 3 ≤ 260 by decide
  holds _ h := nomatch h
  unfinished _ _ := .inl rfl
  nonempty _ h := nomatch h
  packetHeld := rfl
  packetTrue _ h := nomatch h

/-- The framer that holds ADU A, with requests to run. -/
def holdingAsked (script : List Request) : State := { holdingA with script := script }

theorem holdingAsked_window (script : List Request) : (holdingAsked script).window = aduA := rfl

theorem holdingA_inv (script : List Request) : (holdingAsked script).Inv where
  canonical := show Memory.wf 260 (cells 0 aduA) by decide
  written := show ∀ a, a < 9 → (Memory.get (cells 0 aduA) a).isSome by decide
  nothingStale := show ∀ p ∈ cells 0 aduA, p.1 < 9 by decide
  inBounds := show 9 ≤ 260 by decide
  holds _ _ := by
    rw [State.HoldsAdu, holdingAsked_window, show (holdingAsked script).variant = .stream from rfl]
    exact ⟨show streamLength aduA = .ok 9 by decide, ⟨_, rfl⟩, show streamValidate aduA = .ok () by decide⟩
  unfinished _ h := nomatch h
  nonempty _ _ := show 1 ≤ 9 by decide
  packetHeld := rfl
  packetTrue p h := by
    obtain rfl : (⟨.stream 1 0 3 9, 7, 2⟩ : Packet) = p := Option.some.inj h
    rw [holdingAsked_window, show (holdingAsked script).variant = .stream from rfl]
    exact ⟨rfl, show streamPayload aduA = .ok (7, 2) by decide, show 7 + 2 ≤ 9 by decide⟩

theorem witness_StepKeepsTheInvariant :
    (∃ s t : State, s.complete = false ∧ s.Inv ∧ step s = .next t) ∧
    (∃ s t : State, s.complete = true ∧ s.Inv ∧ step s = .next t) :=
  ⟨⟨_, _, rfl, partial_inv [processRequest [0x00]], rfl⟩, ⟨_, _, rfl, holdingA_inv [processRequest []], rfl⟩⟩
theorem witness_CursorFitsNineBits : { framer [0x00, 0x01, 0x00] with script := [] }.Inv ∧ (framer [0x00, 0x01, 0x00]).cap = 260 :=
  ⟨partial_inv [], rfl⟩

/-- Both ranges at their common edge. -/
theorem witness_BufferPrimitives : 259 < 260 ∧ 260 ≤ 260 ∧ Memory.wf 260 (cells 258 [1, 2]) := by decide

/-- Two framers that hold ADU A and differ in one stale byte, and steps of each outcome. -/
def staleA (cap : Nat) (v : Byte) (r : Request) : State :=
  { holdingA with cap := cap, buf := cells 0 aduA ++ [(9, v)], script := [r] }

theorem staleA_alike (cap : Nat) (v w : Byte) (r : Request) : (staleA cap v r).Alike (staleA cap w r) :=
  ⟨rfl, rfl⟩

theorem witness_StaleBytesNeverMatter :
    (∃ s1 s2 t : State, s1 ≠ s2 ∧ s1.Alike s2 ∧ step s1 = .next t) ∧
    (∃ s1 s2 : State, s1 ≠ s2 ∧ s1.Alike s2 ∧ step s1 = .fault .capacityTooSmall) ∧
    (∃ s1 s2 : State, s1 ≠ s2 ∧ s1.Alike s2 ∧ step s1 = .refused .stalePacket) :=
  ⟨⟨_, _, _, by decide, staleA_alike 260 0x22 0x23 (processRequest [0x00]), rfl⟩,
    ⟨_, _, by decide, staleA_alike 259 0x22 0x23 (.op (.command 0b000#3 [])), rfl⟩,
    ⟨_, _, by decide, staleA_alike 260 0x22 0x23 (.view 0), rfl⟩⟩

theorem witness_ResetEmptiesTheFramer :
    Config.maxAdu Variant.stream > 259 ∧ Config.maxAdu Variant.stream ≤ 260 ∧ Config.maxAdu Variant.serial ≤ 256 := by decide
theorem witness_ComputedCapacityNeverTooSmall :
    State.reset.variant ∈ Config.referenceVariants ∧ State.reset.cap = Config.capOf Config.referenceVariants ∧
    Variant.serial ∈ [Variant.serial] ∧ 256 = Config.capOf [Variant.serial] := by decide

/-- Five bytes and six: the two clauses where they meet. -/
theorem witness_LengthStreamResult :
    ([0, 1, 0, 0, 0] : List Byte).length < 6 ∧
    ([0, 1, 0, 0, 0, 0xFF] : List Byte)[4]? = some 0 ∧ ([0, 1, 0, 0, 0, 0xFF] : List Byte)[5]? = some 0xFF := by decide
theorem witness_HeaderStreamResult :
    (aduA.take 6).length < 7 ∧ aduA = 0x00 :: 0x01 :: 0x00 :: 0x00 :: 0x00 :: 0x03 :: 0x09 :: [0xAA, 0xBB] := by decide
/-- Six bytes and seven: the two clauses where they meet. -/
theorem witness_ValidateStreamResult :
    (aduC.take 6).length < 7 ∧ 7 ≤ aduC.length ∧ aduC[4]? = some 0x00 ∧ aduC[5]? = some 0x01 := by decide
theorem witness_PayloadStreamResult :
    (aduC.take 6).length < 7 ∧ 7 ≤ aduC.length ∧ aduC[4]? = some 0x00 ∧ aduC[5]? = some 0x01 := by decide
theorem witness_StreamErrorKinds :
    streamLength [] = .err .notEnoughData ∧ streamLength [0, 0, 0, 0, 0, 0xFF] = .err .badLength ∧
    streamHeader [] = .err .notEnoughData ∧ streamValidate [] = .err .notEnoughData ∧
    streamPayload [] = .err .notEnoughData := by decide
theorem witness_StreamContractConforms : 260 ≤ 260 := by decide

/-- P10's length rule decides from two bytes, and by the second of them. -/
theorem lengthT_cases (w : List Byte) :
    (w.length < 2 ∧ lengthT w = .notEnoughData) ∨
    (∃ a b rest, w = a :: b :: rest ∧ lengthT w = if b = 0xFF then .badFuncCode else .ok (b.toNat + 4)) := by
  rcases w with _ | ⟨a, _ | ⟨b, rest⟩⟩
  · exact .inl ⟨by simp, rfl⟩
  · exact .inl ⟨by simp, rfl⟩
  · exact .inr ⟨a, b, rest, rfl, rfl⟩

theorem lengthT_ok {w : List Byte} {n : Nat} (h : lengthT w = .ok n) :
    ∃ a b rest, w = a :: b :: rest ∧ b ≠ 0xFF ∧ n = b.toNat + 4 := by
  rcases lengthT_cases w with ⟨-, h'⟩ | ⟨a, b, rest, hw, h'⟩ <;> rw [h'] at h
  · cases h
  · split at h <;> cases h
    exact ⟨a, b, rest, hw, ‹_›, rfl⟩

theorem lengthT_obligations : SerialLengthObligations lengthT where
  lower w n h := by obtain ⟨a, b, rest, -, -, rfl⟩ := lengthT_ok h; omega
  stable w n x h _ := by obtain ⟨a, b, rest, rfl, hb, rfl⟩ := lengthT_ok h; exact if_neg hb
  causal w n m h hm _ := by
    obtain ⟨a, b, rest, rfl, hb, rfl⟩ := lengthT_ok h
    obtain ⟨m, rfl⟩ : ∃ k, m = k + 2 := ⟨m - 2, by omega⟩
    exact if_neg hb
  decided w hw := by
    rcases lengthT_cases w with ⟨h, -⟩ | ⟨a, b, rest, -, h⟩
    · omega
    · rw [h]; split <;> simp
  undecidedEmpty := rfl

/-- Both clauses; the second at a whole ADU of four bytes, the double's shortest, whose check holds. -/
theorem witness_SerialContractConforms :
    (256 ≤ 256 ∧ SerialLengthObligations lengthT) ∧
    SerialLengthMeaningful lengthT ∧ serialT.length [0x44, 0x00, 0xC1, 0xC2] = .ok 4 ∧
    4 ≤ ([0x44, 0x00, 0xC1, 0xC2] : List Byte).length :=
  ⟨⟨by decide, lengthT_obligations⟩, fun w n h => by obtain ⟨a, b, rest, -, -, rfl⟩ := lengthT_ok h; omega, by decide, by decide⟩
theorem witness_SerialConformanceExactly : 256 ≤ 256 := by decide

theorem witness_ContractOperationsArePure :
    Instr.validateSerial ∈ [Instr.validateStream, Instr.validateSerial] ∧
    holdingA ≠ framer [] ∧ holdingA.variant = (framer []).variant ∧ holdingA.before ≤ holdingA.cap ∧
    (framer []).before ≤ (framer []).cap ∧ holdingA.before = (framer []).before ∧
    holdingA.room aduC = (framer []).room aduC ∧ holdingA.gathered aduC = (framer []).gathered aduC ∧
    ∃ t, exec (.process aduC) holdingA = .next t :=
  ⟨by simp, by decide, rfl, by decide, by decide, rfl, rfl, rfl, _, rfl⟩

/-- A byte that is stored, a byte that is kept, and the first byte that is not specified: after a partial message, and after
one that completes and leaves stale bytes. -/
theorem witness_ProcessStoresTheChunkAndNothingElse :
    (∃ s t : State, exec (.process [0x07, 0x08]) s = .next t ∧ 1 < s.room [0x07, 0x08] ∧ s.before + 1 < t.used ∧
      2 < s.before ∧ 2 < t.used ∧ t.used ≤ 5) ∧
    (∃ s t : State, exec (.process [0xBB, 0x00, 0x02]) s = .next t ∧ 0 < s.room [0xBB, 0x00, 0x02] ∧
      s.before + 0 < t.used ∧ 7 < s.before ∧ 7 < t.used ∧ t.used ≤ 9 ∧ 9 < s.before + s.room [0xBB, 0x00, 0x02]) :=
  ⟨⟨framer [0x00, 0x01, 0x00], _, rfl, by decide, by decide, by decide, by decide, by decide⟩,
    ⟨framer (aduA.take 8), _, rfl, by decide, by decide, by decide, by decide, by decide, by decide⟩⟩
theorem witness_LengthFailureRetainsOrDiscards :
    (framer [0, 0, 0, 0]).before ≤ 260 ∧
    streamLength ((framer [0, 0, 0, 0]).gathered [0xFF]) = .err .notEnoughData ∧
    streamLength ((framer [0, 0, 0, 0]).gathered [0x00, 0xFF]) = .err .badLength := by decide
theorem witness_IncompleteAduIsRetained :
    (framer []).before ≤ 260 ∧ streamLength ((framer []).gathered (aduA.take 8)) = .ok 9 ∧
    (framer []).before + (framer []).room (aduA.take 8) < 9 := by decide

/-- The fault clause needs ten bytes of a nine-byte ADU buffered, which no run leaves; the other clause at `a` = `before`
and from EMPTY. -/
theorem witness_CompleteAduIsClaimed :
    (streamLength ((framer (aduA ++ [0])).gathered []) = .ok 9 ∧ (framer (aduA ++ [0])).before ≤ 260 ∧
      9 ≤ (framer (aduA ++ [0])).before + (framer (aduA ++ [0])).room [] ∧ 9 < (framer (aduA ++ [0])).before) ∧
    ∀ s ∈ [framer aduA, framer (aduA.take 8)], s.before ≤ 9 ∧ streamLength (s.gathered [0xBB]) = .ok 9 ∧
      9 ≤ s.before + s.room [0xBB] ∧ streamHeader ((s.gathered [0xBB]).take 9) = .ok (.stream 1 0 3 9) ∧
      streamPayload ((s.gathered [0xBB]).take 9) = .ok (7, 2) := by decide

/-- `HEADER` fails (L = 0), `PAYLOAD` fails (a false check, by P10 step 4), both succeed. -/
theorem witness_BuildReturnsThePacketOrDiscards :
    (∃ s : State, ∃ chunk : List Byte, s.before ≤ s.cap ∧ streamContract.length (s.gathered chunk) = .ok 6 ∧
      6 ≤ s.before + s.room chunk ∧ s.before ≤ 6 ∧
      streamContract.header ((s.gathered chunk).take 6) = .err .notEnoughData) ∧
    (∃ s : State, ∃ chunk : List Byte, s.before ≤ s.cap ∧ serialT.length (s.gathered chunk) = .ok 4 ∧
      4 ≤ s.before + s.room chunk ∧ s.before ≤ 4 ∧ serialT.header ((s.gathered chunk).take 4) = .ok (.serial 0x22) ∧
      serialT.payload ((s.gathered chunk).take 4) = .err .badErrorCheck) ∧
    (∃ s : State, ∃ chunk : List Byte, s.before ≤ s.cap ∧ serialT.length (s.gathered chunk) = .ok 4 ∧
      4 ≤ s.before + s.room chunk ∧ s.before ≤ 4 ∧ serialT.header ((s.gathered chunk).take 4) = .ok (.serial 0x44) ∧
      serialT.payload ((s.gathered chunk).take 4) = .ok (1, 1)) :=
  ⟨⟨framer [0, 9, 0, 0, 0], [0], by decide, by decide, by decide, by decide, by decide⟩,
    ⟨framer [], [0x22, 0x00, 0xC1, 0xC3], by decide, by decide, by decide, by decide, by decide, by decide⟩,
    ⟨framer [], [0x44, 0x00, 0xC1, 0xC2], by decide, by decide, by decide, by decide, by decide, by decide⟩⟩

/-- The four clauses: a Packet, S3, S4, S6. -/
theorem witness_ConsumedOnEveryResult :
    (∃ t p, exec (.process aduA) (framer []) = .next t ∧ t.out = .process (.ok p 9 9)) ∧
    (∃ t, exec (.process [0]) (framer []) = .next t ∧ streamLength ((framer []).gathered [0]) = .err .notEnoughData) ∧
    (∃ t, exec (.process (aduA.take 8)) (framer []) = .next t ∧
      streamLength ((framer []).gathered (aduA.take 8)) = .ok 9 ∧
      (framer []).before + (framer []).room (aduA.take 8) < 9) ∧
    (∃ t, exec (.process [0, 0, 0, 0, 0, 0]) (framer []) = .next t ∧
      streamLength ((framer []).gathered [0, 0, 0, 0, 0, 0]) = .ok 6 ∧
      6 ≤ (framer []).before + (framer []).room [0, 0, 0, 0, 0, 0] ∧ t.out = .process (.err .notEnoughData 6)) :=
  ⟨⟨_, _, rfl, rfl⟩, ⟨_, rfl, by decide⟩, ⟨_, rfl, by decide, by decide⟩, ⟨_, rfl, by decide, by decide, rfl⟩⟩

theorem witness_ProcessFaults :
    ((framer (aduA ++ [0])).before ≤ 260 ∧ streamContract.length ((framer (aduA ++ [0])).gathered []) = .ok 9 ∧
      9 < (framer (aduA ++ [0])).before) ∧
    { State.reset with used := 261 }.cap < { State.reset with used := 261 }.before := by decide

/-! ### A small conforming contract: an ADU is two bytes; a second byte of 0 fails the check -/

def pairContract : Contract where
  maxAdu := 2
  length w := if w = [] then .err .notEnoughData else .ok 2
  header := serialHeader
  validate w := if w[1]? = some 0 then .err .badErrorCheck else .ok ()
  payload w := if w[1]? = some 0 then .err .badErrorCheck else .ok (1, w.length - 1)

theorem pairContract_ok {w : List Byte} {a : Nat} (h : pairContract.length w = .ok a) : w ≠ [] ∧ a = 2 := by
  change (if w = [] then _ else _) = _ at h
  split at h <;> cases h
  exact ⟨‹_›, rfl⟩

theorem pairContract_conforming : pairContract.Conforming 260 where
  fits := show 1 ≤ 2 ∧ 2 ≤ 260 by decide
  bounded w a h := by obtain ⟨-, rfl⟩ := pairContract_ok h; exact show 1 ≤ 2 ∧ 2 ≤ 2 by decide
  stable w a x h := by obtain ⟨hw, rfl⟩ := pairContract_ok h; exact if_neg (by simp [hw])
  causal w a m h hm _ := by
    obtain ⟨hw, rfl⟩ := pairContract_ok h
    exact if_neg (by rw [List.take_eq_nil_iff]; rintro (h | h) <;> [omega; exact hw h])
  decided w hw h := by
    have hne : w ≠ [] := by rintro rfl; exact absurd hw (show ¬ 2 ≤ 0 by decide)
    exact nomatch (show pairContract.length w = .ok 2 from if_neg hne).symm.trans h
  undecidedEmpty := rfl

/-- The phases of a steady framer: EMPTY, PARTIAL, HOLDING. -/
theorem pair_steady_empty : (framer []).Steady pairContract := ⟨by decide, fun _ => .inl rfl⟩
theorem pair_steady_partial : (framer [5]).Steady pairContract := ⟨by decide, fun _ => .inr ⟨2, rfl, by decide⟩⟩
theorem pair_steady_holding : { framer [5, 6] with complete := true }.Steady pairContract :=
  ⟨by decide, fun h => nomatch h⟩

theorem witness_SteadyProcessCompletes :
    pairContract.Conforming (framer []).cap ∧ (framer []).Steady pairContract ∧ (framer [5]).Steady pairContract ∧
      { framer [5, 6] with complete := true }.Steady pairContract :=
  ⟨pairContract_conforming, pair_steady_empty, pair_steady_partial, pair_steady_holding⟩
theorem witness_LeftoverIndexBounds :
    ∃ t p, pairContract.Conforming (framer [5]).cap ∧ (framer [5]).Steady pairContract ∧
      processWith pairContract [6, 7] (framer [5]) = .next t ∧ t.out = .process (.ok p 1 1) :=
  ⟨_, _, pairContract_conforming, pair_steady_partial, rfl, rfl⟩
theorem witness_NotEnoughDataBuffersTheWholeChunk :
    pairContract.Conforming (framer []).cap ∧ (framer []).before ≤ 260 ∧
    pairContract.length ((framer []).gathered []) = .err .notEnoughData ∧
    pairContract.length ((framer []).gathered [5]) = .ok 2 ∧ (framer []).before + (framer []).room [5] < 2 :=
  ⟨pairContract_conforming, by decide, by decide, by decide, by decide⟩

/-- The clauses: RESET; a Packet; a destructive error, out of S6; `NotEnoughData` out of S3 and out of S4. -/
theorem witness_PhaseFollowsTheResult :
    (∃ t, exec .reset holdingA = .next t) ∧
    pairContract.Conforming (framer []).cap ∧ (framer []).Steady pairContract ∧
    (∃ t p, processWith pairContract [5, 6] (framer []) = .next t ∧ t.out = .process (.ok p 2 2)) ∧
    (∃ t, processWith pairContract [5, 0] (framer []) = .next t ∧ t.out = .process (.err .badErrorCheck 2) ∧
      Err.badErrorCheck.destructive = true ∧ pairContract.length ((framer []).gathered [5, 0]) = .ok 2 ∧
      2 ≤ (framer []).before + (framer []).room [5, 0]) ∧
    (∃ t, processWith pairContract [] (framer []) = .next t ∧
      pairContract.length ((framer []).gathered []) = .err .notEnoughData) ∧
    (∃ t, processWith pairContract [5] (framer []) = .next t ∧ pairContract.length ((framer []).gathered [5]) = .ok 2 ∧
      (framer []).before + (framer []).room [5] < 2) :=
  ⟨⟨_, rfl⟩, pairContract_conforming, pair_steady_empty, ⟨_, _, rfl, rfl⟩, ⟨_, rfl, rfl, rfl, by decide, by decide⟩,
    ⟨_, rfl, by decide⟩, ⟨_, rfl, by decide, by decide⟩⟩
theorem witness_HoldingActsAsEmpty :
    holdingA.complete = true ∧ (framer []).IsEmpty ∧ holdingA.cap = (framer []).cap := ⟨rfl, ⟨rfl, rfl⟩, rfl⟩
theorem witness_EmptyChunk :
    pairContract.Conforming (framer [5]).cap ∧ (framer [5]).Steady pairContract ∧
      { framer [5, 6] with complete := true }.Steady pairContract :=
  ⟨pairContract_conforming, pair_steady_partial, pair_steady_holding⟩
theorem witness_ChunkingDoesNotMatter :
    pairContract.Conforming (framer []).cap ∧ (framer []).Steady pairContract ∧ (framer []).complete = false ∧
    pairContract.length ((framer []).gathered []) = .err .notEnoughData ∧
    (∃ s1, processWith pairContract [] (framer []) = .next s1) ∧
    pairContract.length ((framer []).gathered [5]) = .ok 2 ∧ (framer []).before + (framer []).room [5] < 2 ∧
    ∃ s1, processWith pairContract [5] (framer []) = .next s1 :=
  ⟨pairContract_conforming, pair_steady_empty, rfl, by decide, ⟨_, rfl⟩, by decide, by decide, _, rfl⟩
theorem witness_DrainPeelsOneAduPerCall :
    pairContract.Conforming (framer []).cap ∧ (framer []).IsEmpty ∧ [[5, 6], [7, 8]] ≠ ([] : List (List Byte)) ∧
      ∀ x ∈ ([[5, 6], [7, 8]] : List (List Byte)), pairContract.Accepts x := by
  refine ⟨pairContract_conforming, ⟨rfl, rfl⟩, by decide, fun x hx => ?_⟩
  simp only [List.mem_cons, List.not_mem_nil, or_false] at hx
  rcases hx with rfl | rfl <;> exact ⟨rfl, ⟨_, rfl⟩, _, rfl⟩
theorem witness_DrainEnds :
    pairContract.Conforming (framer [5]).cap ∧ (framer [5]).Steady pairContract :=
  ⟨pairContract_conforming, pair_steady_partial⟩

/-- A full one-byte framer, through a contract that never decides and through one that always wants two bytes. -/
theorem witness_StuckFullBuffer :
    { framer [5] with cap := 1 }.complete = false ∧ { framer [5] with cap := 1 }.used = { framer [5] with cap := 1 }.cap ∧
    { pairContract with length := fun _ => .err .notEnoughData }.length { framer [5] with cap := 1 }.window =
      .err .notEnoughData ∧
    pairContract.length { framer [5] with cap := 1 }.window = .ok 2 ∧ { framer [5] with cap := 1 }.cap < 2 :=
  ⟨rfl, rfl, rfl, rfl, by decide⟩
/-- P3 (a) step 1. -/
theorem witness_RecoveryAfterDestructiveError :
    ∃ t, processWith streamContract [0x00, 0x05, 0x00, 0x00, 0x00, 0xFF, 0x01, 0x02, 0x03] (framer []) = .next t ∧
      t.out = .process (.err .badLength 9) ∧ Err.badLength.destructive = true ∧
      State.reset.IsEmpty ∧ State.reset.cap = (framer []).cap :=
  ⟨_, rfl, rfl, rfl, ⟨rfl, rfl⟩, rfl⟩

theorem length_aduM : aduM.length = 260 := by rw [aduM, List.length_append, List.length_replicate]; rfl
theorem gathered_empty {x : List Byte} (h : x.length ≤ 260) : (framer []).gathered x = x := List.take_of_length_le h

theorem stream_steady_empty : (framer []).Steady streamContract := ⟨by decide, fun _ => .inl rfl⟩

/-- Each clause, at the ends of its range of L (255, 65535; 0; 1, 254; 1, 254). -/
theorem witness_StreamProcessByDeclaredLength :
    (framer []).variant = .stream ∧ 260 ≤ (framer []).cap ∧ (framer []).Steady streamContract ∧
    ((framer []).gathered [0, 1, 0, 0, 0]).length < 6 ∧
    (∀ x ∈ ([[0, 1, 0, 0, 0, 255], [0, 1, 0, 0, 255, 255], [0, 1, 0, 0, 0, 0], [0, 1, 0, 0, 0, 1], [0, 1, 0, 0, 0, 254]] :
      List (List Byte)), (x[4]?).isSome ∧ (x[5]?).isSome ∧ (framer []).gathered x = x) ∧
    ((framer []).gathered [0, 1, 0, 0, 0, 1]).length < 1 + 6 ∧ ((framer []).gathered [0, 1, 0, 0, 0, 254]).length < 254 + 6 ∧
    1 + 6 ≤ ((framer []).gathered aduC).length ∧ (((framer []).gathered aduC)[5]?) = some 1 ∧
    254 + 6 ≤ ((framer []).gathered aduM).length ∧ (((framer []).gathered aduM)[5]?) = some 254 := by
  rw [gathered_empty (show aduM.length ≤ 260 by rw [length_aduM]), length_aduM]
  exact ⟨rfl, by decide, stream_steady_empty, by decide, by decide, by decide, by decide, by decide, by decide, by decide, rfl⟩
theorem witness_OnlyTheDeclaredLengthDecides :
    ∃ t, exec (.process aduA) (framer []) = .next t ∧
      ([0xFF, 0xFE, 0xFD, 0xFC, 0x00, 0x03, 0xFB, 0x01, 0x02] : List Byte).length = aduA.length ∧
      ((framer []).gathered [0xFF, 0xFE, 0xFD, 0xFC, 0x00, 0x03, 0xFB, 0x01, 0x02])[4]? = ((framer []).gathered aduA)[4]? ∧
      ((framer []).gathered [0xFF, 0xFE, 0xFD, 0xFC, 0x00, 0x03, 0xFB, 0x01, 0x02])[5]? = ((framer []).gathered aduA)[5]? :=
  ⟨_, rfl, rfl, rfl, rfl⟩

theorem aduA_isStreamAdu : IsStreamAdu aduA := ⟨3, rfl, by decide, by decide, rfl⟩
theorem aduC_isStreamAdu : IsStreamAdu aduC := ⟨1, rfl, by decide, by decide, rfl⟩

/-- The shortest ADU and the source's; the first byte and the last but one. -/
theorem witness_OneByteAtATime :
    IsStreamAdu aduA ∧ IsStreamAdu aduC ∧ (framer []).variant = .stream ∧ 260 ≤ (framer []).cap ∧
    { framer [] with script := feed1 aduA }.IsEmpty ∧ { framer [] with script := feed1 aduA }.script = feed1 aduA ∧
    0 < 1 ∧ 8 < aduA.length :=
  ⟨aduA_isStreamAdu, aduC_isStreamAdu, rfl, by decide, ⟨rfl, rfl⟩, rfl, by decide, by decide⟩
theorem witness_SplitAnywhere :
    IsStreamAdu aduA ∧ 0 < aduA.length ∧ 8 < aduA.length ∧ (framer []).variant = .stream ∧ 260 ≤ (framer []).cap ∧
      (framer []).IsEmpty :=
  ⟨aduA_isStreamAdu, by decide, by decide, rfl, by decide, rfl, rfl⟩

theorem witness_PacketViewReadsThePayload :
    (holdingAsked [.view 1]).Inv ∧ (holdingAsked [.view 1]).packet = some ⟨.stream 1 0 3 9, 7, 2⟩ ∧
    (holdingAsked [.view 1]).script = [.view (holdingAsked [.view 1]).epoch] :=
  ⟨holdingA_inv _, rfl, rfl⟩
/-- Each clause: a read by an old number and one with no Packet; RESET and PROCESS, and a run after one; a step; a pure
operation. -/
theorem witness_PacketDiesAtTheNextOperation :
    ((holdingAsked [.view 0]).script = [.view 0] ∧ 0 ≠ (holdingAsked [.view 0]).epoch) ∧
    ((asked (.view 0) State.reset).script = [.view 0] ∧ (asked (.view 0) State.reset).packet = none) ∧
    (∃ t, exec .reset holdingA = .next t) ∧
    (∃ t u, exec (.process []) (holdingAsked [processRequest aduA, .view 3]) = .next t ∧
      Sys2Proof.core.run 2 t = .next u ∧ 1 ≤ (holdingAsked []).epoch) ∧
    (∃ t, step (holdingAsked [processRequest aduC]) = .next t) ∧
    (∃ t, exec (.headerStream aduC) holdingA = .next t) ∧ Instr.headerStream aduC ≠ .reset ∧
    ∀ chunk, Instr.headerStream aduC ≠ .process chunk :=
  ⟨⟨rfl, by decide⟩, ⟨rfl, rfl⟩, ⟨_, rfl⟩, ⟨_, _, rfl, rfl, by decide⟩, ⟨_, rfl⟩, ⟨_, rfl⟩, nofun, nofun⟩
theorem witness_BytesNeededIsTheCeiling : 9 ≤ 8 * 2 := by decide

/-- Too few bytes and just enough; a byte beyond, a used byte and its last bit. -/
theorem witness_PackResult :
    ([0xFF] : List Byte).length < bytesNeeded 9 ∧ bytesNeeded 9 ≤ ([0xFF, 0xFF, 0xFF] : List Byte).length ∧
    bytesNeeded 9 ≤ 2 ∧ 1 < bytesNeeded 9 ∧ 7 < 8 := by decide
theorem witness_UnpackResult :
    ([0x0D] : List Byte).length < bytesNeeded 9 ∧ bytesNeeded 9 ≤ ([0x0D, 0x01] : List Byte).length ∧
    8 < 9 ∧ ([0x0D, 0x01] : List Byte)[8 / 8]? = some 0x01 := by decide
theorem witness_PackThenUnpack :
    bytesNeeded [true, false, true, true, false, false, false, false, true].length ≤ ([0xFF, 0xFF] : List Byte).length := by
  decide

end Sys2Proof.Tests
end

section
/-! SUPPORT. Inversion laws: what a read through the Packet view answers, and where a step can lead. -/

namespace Sys2Proof.Machine

/-- A range inside a run of bytes, read on its own. -/
theorem Memory.take_drop_readBytes (m : Memory) {a n off k : Nat} (h : off + k ≤ n) :
    ((Memory.readBytes m a n).drop off).take k = Memory.readBytes m (a + off) k := by
  apply List.ext_getElem?
  intro i
  simp only [List.getElem?_take, List.getElem?_drop, Memory.getElem?_readBytes]
  by_cases hi : i < k
  · rw [if_pos hi, if_pos hi, if_pos (by omega), Nat.add_assoc]
  · rw [if_neg hi, if_neg hi]

/-- The payload range of a Packet in the buffered window. -/
def State.payloadBytes (s : State) (p : Packet) : List Byte := (s.window.drop p.off).take p.plen

/-- The view's bytes depend on the buffered window alone. -/
theorem State.memRead_payload (s : State) (p : Packet) :
    memRead (min s.used s.cap) s.buf p.off p.plen =
      if p.off + p.plen ≤ min s.used s.cap then .ok (s.payloadBytes p) else .error .bufferIndexOutOfRange := by
  unfold memRead
  split
  · rw [State.payloadBytes, State.window, Memory.take_drop_readBytes _ (by omega), Nat.zero_add]
  · rfl

/-! ## The read through the Packet -/

theorem viewPacket_of_stale {epoch : Nat} {s : State} (h : s.packet = none ∨ epoch ≠ s.epoch) :
    viewPacket epoch s = .refused .stalePacket := by
  unfold viewPacket
  cases hp : s.packet with
  | none => rfl
  | some p => exact if_neg (h.resolve_left (by simp [hp]))

theorem viewPacket_of_outside {s : State} {p : Packet} (hp : s.packet = some p)
    (h : min s.used s.cap < p.off + p.plen) : viewPacket s.epoch s = .fault .bufferIndexOutOfRange := by
  simp only [viewPacket, hp, State.memRead_payload, if_neg (Nat.not_le.mpr h), if_true]

theorem viewPacket_of_inside {s : State} {p : Packet} (hp : s.packet = some p)
    (h : p.off + p.plen ≤ min s.used s.cap) :
    viewPacket s.epoch s = .next (s.returns (.view (s.payloadBytes p))) := by
  simp only [viewPacket, hp, State.memRead_payload, if_pos h, if_true]

/-- Everything a read through the Packet can do. -/
inductive ViewAnswers (epoch : Nat) (s : State) : Host.Outcome State Fault Refusal → Prop
  | stale : s.packet = none ∨ epoch ≠ s.epoch → ViewAnswers epoch s (.refused .stalePacket)
  | outside (p : Packet) : s.packet = some p → epoch = s.epoch → min s.used s.cap < p.off + p.plen →
      ViewAnswers epoch s (.fault .bufferIndexOutOfRange)
  | inside (p : Packet) : s.packet = some p → epoch = s.epoch → p.off + p.plen ≤ min s.used s.cap →
      ViewAnswers epoch s (.next (s.returns (.view (s.payloadBytes p))))

theorem viewPacket_answers (epoch : Nat) (s : State) : ViewAnswers epoch s (viewPacket epoch s) := by
  by_cases he : epoch = s.epoch
  · subst he
    cases hp : s.packet with
    | none => exact viewPacket_of_stale (.inl hp) ▸ .stale (.inl hp)
    | some p =>
      by_cases h : p.off + p.plen ≤ min s.used s.cap
      · exact viewPacket_of_inside hp h ▸ .inside p hp rfl h
      · exact viewPacket_of_outside hp (Nat.not_le.mp h) ▸ .outside p hp rfl (Nat.not_le.mp h)
  · exact viewPacket_of_stale (.inr he) ▸ .stale (.inr he)

/-! ## Where a step can lead -/

theorem exec_reset_next {s t : State} (h : exec .reset s = .next t) : t = s.startOperation.empty.returns .none := by
  by_cases hfit : Config.maxAdu s.variant ≤ s.cap
  · rw [exec_reset_of_fits hfit] at h
    cases h; rfl
  · rw [exec_reset_of_too_small (Nat.not_le.mp hfit)] at h
    cases h

/-- The states that a step can lead to: the same one, the same but for the output, EMPTY, or what PROCESS answers. -/
inductive StepLeads (s : State) : State → Prop
  | idle : StepLeads s s
  | output (rest : List Request) (o : Output) : StepLeads s { s with script := rest, out := o }
  | reset (rest : List Request) : StepLeads s ({ s with script := rest }.startOperation.empty.returns .none)
  | process (rest : List Request) (chunk : List Byte) (t : State) :
      processWith (contractOf s.variant) chunk { s with script := rest } = .next t → StepLeads s t

theorem step_leads {s t : State} (h : step s = .next t) : StepLeads s t := by
  rcases step_cases s with ⟨-, hs⟩ | ⟨epoch, rest, -, hs⟩ | ⟨e, rest, i, -, -, hs⟩ | ⟨e, rest, d, -, -, hs⟩ <;>
    rw [hs] at h
  case inl => cases h; exact .idle
  case inr.inl =>
    have ha := viewPacket_answers epoch { s with script := rest }
    rw [h] at ha
    cases ha with
    | inside p _ _ _ => exact .output rest _
  case inr.inr.inl =>
    rcases exec_cases i with rfl | ⟨chunk, rfl⟩ | ⟨o, ho⟩
    · rw [exec_reset_next h]; exact .reset rest
    · exact .process rest chunk t h
    · rw [ho] at h
      cases h; exact .output rest o
  case inr.inr.inr => cases h

/-! ## The straps -/

theorem processWith_straps {c : Contract} {chunk : List Byte} {s t : State} (h : processWith c chunk s = .next t) :
    t.variant = s.variant ∧ t.cap = s.cap := by
  obtain ⟨-, m, -, ⟨-, rfl⟩ | ⟨e, -, -, rfl⟩ | ⟨a, e, -, -, rfl⟩ | ⟨a, hd, off, plen, -, -, -, rfl⟩⟩ :=
    processWith_next h <;> exact ⟨rfl, rfl⟩

/-- Settles O8: every state that a step leads to has the straps of the first. -/
theorem stepNeverWritesTheStraps : Obligations.StepNeverWritesTheStraps := by
  intro s t h
  cases step_leads h with
  | idle => exact ⟨rfl, rfl⟩
  | output rest o => exact ⟨rfl, rfl⟩
  | reset rest => exact ⟨rfl, rfl⟩
  | process rest chunk t hp => exact processWith_straps (s := { s with script := rest }) hp

end Sys2Proof.Machine
end

section
/-! SUPPORT. The invariant: EMPTY has it, PROCESS keeps it in each of its answers, and so every step keeps it. -/

namespace Sys2Proof.Machine

/-! ## What `PAYLOAD` of a strapped contract says -/

theorem payload_contractOf (v : Variant) (w : List Byte) :
    (contractOf v).payload w = payloadFrom v ((contractOf v).validate w) w := by cases v <;> rfl

theorem payloadFrom_ok {v : Variant} {validated : Result Unit} {w : List Byte} {off plen : Nat}
    (h : payloadFrom v validated w = .ok (off, plen)) :
    validated = .ok () ∧ off = hdrSize v ∧ plen = w.length - hdrSize v - trailer v := by
  cases validated with
  | err e => cases h
  | ok u => cases h; exact ⟨rfl, rfl, rfl⟩

theorem serialValidate_of_short {serialCheck : List Byte → Bool} {w : List Byte} (h : w.length < 3) :
    serialValidate serialCheck w = .err .notEnoughData := by
  rw [serialValidate, if_pos (by simpa [hdrSize, trailer] using h)]

/-- A window that a strapped contract validates holds a whole header. -/
theorem hdrSize_le_of_validate {v : Variant} {w : List Byte} (h : (contractOf v).validate w = .ok ()) :
    hdrSize v ≤ w.length := by
  by_contra hlt
  cases v with
  | stream => exact nomatch h.symm.trans (streamValidate_of_short (Nat.not_le.mp hlt))
  | serial =>
    have hlt : w.length < 1 := Nat.not_le.mp hlt
    exact nomatch h.symm.trans (serialValidate_of_short (by omega))

/-- A payload range comes from a validated window and lies inside it. -/
theorem validate_and_range_of_payload {v : Variant} {w : List Byte} {off plen : Nat}
    (h : (contractOf v).payload w = .ok (off, plen)) :
    (contractOf v).validate w = .ok () ∧ off + plen ≤ w.length := by
  rw [payload_contractOf] at h
  obtain ⟨hv, rfl, rfl⟩ := payloadFrom_ok h
  have := hdrSize_le_of_validate hv
  exact ⟨hv, by omega⟩

/-! ## The states that have the invariant -/

/-- An EMPTY framer with no byte specified and no Packet: as after reset, RESET and every discard. -/
theorem State.inv_of_blank {s : State} (hbuf : s.buf = []) (hused : s.used = 0) (hcomplete : s.complete = false)
    (hpacket : s.packet = none) : s.Inv where
  canonical := hbuf ▸ Memory.wf_nil _
  written a ha := by omega
  nothingStale p hp := by simp [hbuf] at hp
  inBounds := by omega
  holds _ h := by simp [hcomplete] at h
  unfinished hc _ := by
    have hw : s.window = [] := List.length_eq_zero_iff.mp (by rw [State.length_window, hused])
    exact .inl (hw ▸ hc.undecidedEmpty)
  nonempty _ h := by simp [hcomplete] at h
  packetHeld := by rw [hpacket, hcomplete]; rfl
  packetTrue p hp := by simp [hpacket] at hp

/-- The invariant does not speak of the script and the output. -/
theorem State.Inv.withScriptAndOut {s : State} (h : s.Inv) (rest : List Request) (o : Output) :
    { s with script := rest, out := o }.Inv where
  canonical := h.canonical
  written := h.written
  nothingStale := h.nothingStale
  inBounds := h.inBounds
  holds := h.holds
  unfinished := h.unfinished
  nonempty := h.nonempty
  packetHeld := h.packetHeld
  packetTrue := h.packetTrue

theorem State.before_le_used (s : State) : s.before ≤ s.used := by
  unfold State.before; split <;> omega

theorem State.before_add_room_le (s : State) (chunk : List Byte) (hb : s.before ≤ s.cap) :
    s.before + s.room chunk ≤ s.cap := by
  unfold State.room; omega

/-- After step S2 every byte below the new `USED` was written, now or before. -/
theorem Appends.written {s : State} {chunk : List Byte} {m : Memory} (hm : Appends s chunk m) (hs : s.Inv) {a : Nat}
    (ha : a < s.before + s.room chunk) : (Memory.get m a).isSome := by
  rw [hm.get a]
  split
  · have hroom : s.room chunk ≤ chunk.length := Nat.min_le_right _ _
    rw [List.getElem?_eq_getElem (by omega)]
    rfl
  · have hlt : a < s.before := by omega
    rw [State.get_keptBuf s hlt]
    exact hs.written a (Nat.lt_of_lt_of_le hlt s.before_le_used)

/-- After step S2 no byte at or past the new `USED` is specified. -/
theorem Appends.nothingStale {s : State} {chunk : List Byte} {m : Memory} (hm : Appends s chunk m) (hs : s.Inv)
    {p : Nat × Byte} (hp : p ∈ m) : p.1 < s.before + s.room chunk := by
  rcases hm.mem p hp with hkept | hnew
  · cases hc : s.complete with
    | true => simp [State.keptBuf, hc] at hkept
    | false =>
      have := hs.nothingStale p (by simpa [State.keptBuf, hc] using hkept)
      rw [State.before_of_not_complete hc]
      omega
  · exact hnew

/-- S3 and S4 keep the invariant: what is retained is not yet a whole ADU. -/
theorem State.Inv.appended {s : State} {chunk : List Byte} {m : Memory} (hs : s.Inv) (hb : s.before ≤ s.cap)
    (hm : Appends s chunk m) (hu : Undecided (contractOf s.variant) chunk s) : (s.appended chunk m).Inv where
  canonical := hm.wf hs.canonical
  written _ ha := hm.written hs ha
  nothingStale _ hp := hm.nothingStale hs hp
  inBounds := s.before_add_room_le chunk hb
  holds _ h := nomatch h
  unfinished _ _ := by
    rw [State.Unfinished, hm.window_appended]
    exact hu
  nonempty _ h := nomatch h
  packetHeld := rfl
  packetTrue _ h := nomatch h

/-- The state in which PROCESS returns a Packet: the ADU of `a` bytes is claimed and the Packet outstanding. -/
def State.delivered (s : State) (a : Nat) (p : Packet) (o : Output) : State :=
  { s.claim a with packet := some p, out := o }

/-- S5 and S6 keep the invariant: what is held is one validated ADU, by causality (W4). -/
theorem State.Inv.delivered {s : State} {chunk : List Byte} {m : Memory} {a : Nat} {p : Packet} {o : Output}
    (hs : s.Inv) (hb : s.before ≤ s.cap) (hm : Appends s chunk m) (hc : Claims (contractOf s.variant) chunk s a)
    (hh : (contractOf s.variant).header ((s.gathered chunk).take a) = .ok p.header)
    (hp : (contractOf s.variant).payload ((s.gathered chunk).take a) = .ok (p.off, p.plen)) :
    ((s.appended chunk m).delivered a p o).Inv := by
  obtain ⟨hl, hle, -⟩ := hc
  have hlen := State.length_gathered s chunk hb
  have hw : ((s.appended chunk m).delivered a p o).window = (s.gathered chunk).take a := hm.window_claim hle
  obtain ⟨hv, hrange⟩ := validate_and_range_of_payload hp
  exact {
    canonical := Memory.wf_below a (hm.wf hs.canonical)
    written := fun b hb => by
      have hb : b < a := hb
      show (Memory.get (Memory.below a m) b).isSome
      rw [Memory.get_below, if_pos hb]
      exact hm.written hs (by omega)
    nothingStale := fun _ hq => Memory.lt_of_mem_below hq
    inBounds := hle.trans (s.before_add_room_le chunk hb)
    holds := fun hconf _ => by
      rw [State.HoldsAdu, hw]
      exact ⟨hconf.causal _ a a hl le_rfl (hlen ▸ hle), ⟨_, hh⟩, hv⟩
    unfinished := fun _ h => nomatch h
    nonempty := fun hconf _ => (hconf.bounded _ a hl).1
    packetHeld := rfl
    packetTrue := fun q hq => by
      obtain rfl : p = q := Option.some.inj hq
      rw [hw]
      exact ⟨hh, hp, hrange.trans (List.length_take_le _ _)⟩ }

/-- PROCESS keeps the invariant, whichever way it ends. -/
theorem State.Inv.process {s t : State} {chunk : List Byte} (hs : s.Inv)
    (h : processWith (contractOf s.variant) chunk s = .next t) : t.Inv := by
  obtain ⟨hb, m, hm, hcase⟩ := processWith_next h
  rcases hcase with ⟨hu, rfl⟩ | ⟨e, -, -, rfl⟩ | ⟨a, e, -, -, rfl⟩ | ⟨a, hd, off, plen, hc, hh, hp, rfl⟩
  · exact (hs.appended hb hm hu).withScriptAndOut _ _
  · exact State.inv_of_blank rfl rfl rfl rfl
  · exact State.inv_of_blank rfl rfl rfl rfl
  · exact hs.delivered (p := ⟨hd, off, plen⟩) hb hm hc hh hp

/-- Settles O9, by the cases of where a step can lead: only PROCESS writes what the invariant speaks of and keeps bytes. -/
theorem stepKeepsTheInvariant : Obligations.StepKeepsTheInvariant := by
  intro s t hs h
  cases step_leads h with
  | idle => exact hs
  | output rest o => exact hs.withScriptAndOut rest o
  | reset rest => exact State.inv_of_blank rfl rfl rfl rfl
  | process rest chunk t hp => exact (hs.withScriptAndOut rest s.out).process hp

/-- Settles O10: the state after reset is a blank EMPTY one. -/
theorem resetHasTheInvariant : Obligations.ResetHasTheInvariant := State.inv_of_blank rfl rfl rfl rfl

/-- Settles O11: nothing is below `USED` = 0, so every byte is a free value. -/
theorem resetState : Obligations.ResetState := ⟨rfl, rfl, rfl, fun a => State.bufByte_of_ge (Nat.zero_le a)⟩

/-- Settles O12: I1 bounds the cursor by 260, below 2 ^ 9. -/
theorem cursorFitsNineBits : Obligations.CursorFitsNineBits := by
  intro s hs hcap
  have hbound : s.used ≤ 260 := hcap ▸ hs.inBounds
  rw [BitVec.toNat_ofNat]
  exact Nat.mod_eq_of_lt (by omega)

/-- Settles O54: by the invariant the payload range is inside the window, and the window inside `BUF`. -/
theorem packetViewReadsThePayload : Obligations.PacketViewReadsThePayload := by
  intro s p rest hs hp hscript
  obtain ⟨-, -, hrange⟩ := hs.packetTrue p hp
  have hcap := hs.inBounds
  refine ⟨?_, ?_⟩
  · rw [step_of_view hscript]
    exact viewPacket_of_inside (s := { s with script := rest }) hp (show p.off + p.plen ≤ min s.used s.cap by omega)
  · rw [List.length_take, List.length_drop, State.length_window]
    omega

end Sys2Proof.Machine
end

section
/-! SUPPORT. Alike framers: two framers that differ only at and past `USED` take alike steps. -/

namespace Sys2Proof.Machine

namespace State.Alike

variable {s t : State}

theorem used_eq (h : s.Alike t) : t.used = s.used := by rw [← h.registers]
theorem variant_eq (h : s.Alike t) : t.variant = s.variant := by rw [← h.registers]
theorem cap_eq (h : s.Alike t) : t.cap = s.cap := by rw [← h.registers]
theorem packet_eq (h : s.Alike t) : t.packet = s.packet := by rw [← h.registers]
theorem epoch_eq (h : s.Alike t) : t.epoch = s.epoch := by rw [← h.registers]
theorem script_eq (h : s.Alike t) : t.script = s.script := by rw [← h.registers]
theorem complete_eq (h : s.Alike t) : t.complete = s.complete := by rw [← h.registers]

theorem before_eq (h : s.Alike t) : t.before = s.before := by rw [before, before, h.complete_eq, h.used_eq]
theorem room_eq (h : s.Alike t) (chunk : List Byte) : t.room chunk = s.room chunk := by
  rw [room, room, h.cap_eq, h.before_eq]
theorem kept_eq (h : s.Alike t) : t.kept = s.kept := by rw [kept, kept, h.complete_eq, h.window]
theorem gathered_eq (h : s.Alike t) (chunk : List Byte) : t.gathered chunk = s.gathered chunk := by
  rw [gathered, gathered, h.kept_eq, h.cap_eq]
theorem payloadBytes_eq (h : s.Alike t) (p : Packet) : t.payloadBytes p = s.payloadBytes p := by
  rw [payloadBytes, payloadBytes, h.window]

/-! ### The updates of the state keep framers alike -/

theorem withScript (h : s.Alike t) (rest : List Request) : { s with script := rest }.Alike { t with script := rest } :=
  ⟨(congrArg (fun u : State => { u with script := rest }) h.registers :), h.window⟩

theorem returns (h : s.Alike t) (o : Output) : (s.returns o).Alike (t.returns o) :=
  ⟨(congrArg (State.returns · o) h.registers :), h.window⟩

theorem startOperation (h : s.Alike t) : s.startOperation.Alike t.startOperation :=
  ⟨(congrArg State.startOperation h.registers :), h.window⟩

theorem empty (h : s.Alike t) : s.empty.Alike t.empty := ⟨(congrArg State.empty h.registers :), rfl⟩

theorem appended (h : s.Alike t) {chunk : List Byte} {m m' : Memory} (hm : Appends s chunk m)
    (hm' : Appends t chunk m') : (s.appended chunk m).Alike (t.appended chunk m') :=
  ⟨(congrArg (State.appended · chunk m') h.registers :),
    hm.window_appended.trans ((h.gathered_eq chunk).symm.trans hm'.window_appended.symm)⟩

theorem delivered (h : s.Alike t) {a : Nat} (ha : a ≤ s.used) (p : Packet) (o : Output) :
    (s.delivered a p o).Alike (t.delivered a p o) := by
  refine ⟨(congrArg (State.delivered · a p o) h.registers :), ?_⟩
  show Memory.readBytes (Memory.below a s.buf) 0 a = Memory.readBytes (Memory.below a t.buf) 0 a
  rw [Memory.readBytes_below, Memory.readBytes_below, ← Memory.take_readBytes s.buf 0 s.used a ha,
    ← Memory.take_readBytes t.buf 0 t.used a (h.used_eq ▸ ha)]
  exact congrArg (List.take a) h.window

end State.Alike

/-- Alike outcomes: alike next states, the same fault, or the same refusal. -/
inductive OutcomesAlike : Host.Outcome State Fault Refusal → Host.Outcome State Fault Refusal → Prop
  | next {s t : State} : s.Alike t → OutcomesAlike (.next s) (.next t)
  | fault (f : Fault) : OutcomesAlike (.fault f) (.fault f)
  | refused (r : Refusal) : OutcomesAlike (.refused r) (.refused r)

theorem State.Alike.viewPacket {s t : State} (h : s.Alike t) (epoch : Nat) :
    OutcomesAlike (viewPacket epoch s) (viewPacket epoch t) := by
  have ha := viewPacket_answers epoch s
  generalize Machine.viewPacket epoch s = o at ha ⊢
  cases ha with
  | stale hs =>
    rw [viewPacket_of_stale (by rwa [h.packet_eq, h.epoch_eq])]
    exact .refused _
  | outside p hp he hlt =>
    rw [he, ← h.epoch_eq, viewPacket_of_outside (h.packet_eq.trans hp) (by rwa [h.used_eq, h.cap_eq])]
    exact .fault _
  | inside p hp he hle =>
    rw [he, ← h.epoch_eq, viewPacket_of_inside (h.packet_eq.trans hp) (by rwa [h.used_eq, h.cap_eq]),
      h.payloadBytes_eq]
    exact .next (h.returns _)

/-- What PROCESS answers depends on the registers and the buffered window, in each of its cases. -/
theorem State.Alike.processWith {s t : State} (h : s.Alike t) (c : Contract) (chunk : List Byte) :
    OutcomesAlike (processWith c chunk s) (processWith c chunk t) := by
  have ha := processWith_answers c chunk s
  have hg := h.gathered_eq chunk
  have hr := h.room_eq chunk
  have hundecided : Undecided c chunk s → Undecided c chunk t := by
    rw [Undecided, Undecided, hg, hr, h.before_eq]; exact id
  have hclaims : ∀ {a}, Claims c chunk s a → Claims c chunk t a := by
    intro a; rw [Claims, Claims, hg, hr, h.before_eq]; exact id
  have hbefore : s.before ≤ s.cap → t.before ≤ t.cap := by rw [h.before_eq, h.cap_eq]; exact id
  generalize Machine.processWith c chunk s = o at ha ⊢
  cases ha with
  | outOfRange hb =>
    rw [processWith_out_of_range c chunk t (by rwa [h.before_eq, h.cap_eq])]
    exact .fault _
  | retained m hb hm hu =>
    obtain ⟨m', hm', heq⟩ := processWith_of_undecided (hbefore hb) (hundecided hu)
    rw [heq, hr]
    exact .next ((h.appended hm hm').returns _)
  | discarded m e hb hm hl he =>
    obtain ⟨m', hm', heq⟩ := processWith_of_length_error (hbefore hb) (hg ▸ hl) he
    rw [heq, hr]
    exact .next ((h.appended hm hm').empty.returns _)
  | shortLength a hb hl ha =>
    rw [processWith_of_short_length (hbefore hb) (hg ▸ hl) (h.before_eq ▸ ha)]
    exact .fault _
  | unbuilt m a e hb hm hc hf =>
    obtain ⟨m', hm', heq⟩ := processWith_of_build_error (hbefore hb) (hclaims hc) (hg ▸ hf)
    rw [heq, h.before_eq]
    exact .next ((h.appended hm hm').empty.returns _)
  | packet m a hd off plen hb hm hc hh hp =>
    obtain ⟨m', hm', heq⟩ := processWith_of_packet (hbefore hb) (hclaims hc) (hg ▸ hh) (hg ▸ hp)
    rw [heq, h.before_eq]
    exact .next ((h.appended hm hm').delivered hc.2.1 ⟨hd, off, plen⟩ _)

theorem State.Alike.exec {s t : State} (h : s.Alike t) (i : Instr) : OutcomesAlike (exec i s) (exec i t) := by
  rcases exec_cases i with rfl | ⟨chunk, rfl⟩ | ⟨o, ho⟩
  · by_cases hfit : Config.maxAdu s.variant ≤ s.cap
    · rw [exec_reset_of_fits hfit, exec_reset_of_fits (by rwa [h.variant_eq, h.cap_eq])]
      exact .next (h.startOperation.empty.returns _)
    · rw [exec_reset_of_too_small (Nat.not_le.mp hfit),
        exec_reset_of_too_small (by rw [h.variant_eq, h.cap_eq]; exact Nat.not_le.mp hfit)]
      exact .fault _
  · rw [exec_process, exec_process, h.variant_eq]
    exact h.processWith _ chunk
  · rw [ho, ho]
    exact .next (h.returns o)

theorem State.Alike.step {s t : State} (h : s.Alike t) : OutcomesAlike (step s) (step t) := by
  rcases step_cases s with ⟨hs, he⟩ | ⟨epoch, rest, hs, he⟩ | ⟨e, rest, i, hs, hd, he⟩ | ⟨e, rest, d, hs, hd, he⟩ <;>
    rw [he] <;> rw [← h.script_eq] at hs
  case inl =>
    rw [step_of_idle hs]
    exact .next h
  case inr.inl =>
    rw [step_of_view hs]
    exact (h.withScript rest).viewPacket epoch
  case inr.inr.inl =>
    rw [step_of_decoded hs (h.variant_eq ▸ hd)]
    exact (h.withScript rest).exec i
  case inr.inr.inr =>
    rw [step_of_rejected hs (h.variant_eq ▸ hd)]
    exact .refused _

/-- Settles O14: alike framers take alike steps. -/
theorem staleBytesNeverMatter : Obligations.StaleBytesNeverMatter := by
  intro s1 s2 h
  have ha := h.step
  refine ⟨fun t1 he => ?_, fun f he => ?_, fun r he => ?_⟩ <;> rw [he] at ha <;> generalize Machine.step s2 = o at ha ⊢
  · cases ha with
    | next ht => exact ⟨_, rfl, ht⟩
  · cases ha; rfl
  · cases ha; rfl

end Sys2Proof.Machine
end

section
/-! SUPPORT. The protocol-contract state machine (R28): the phase that each answer of PROCESS leads to. -/

namespace Sys2Proof.Machine

theorem State.phase_of_empty {s : State} (hc : s.complete = false) (hu : s.used = 0) : s.phase = .empty := by
  rw [State.phase, if_neg (by simp [hc]), if_pos hu]

theorem State.phase_of_holding {s : State} (hc : s.complete = true) : s.phase = .holding := if_pos hc

theorem State.phase_of_not_complete {s : State} (hc : s.complete = false) :
    s.phase = if s.used = 0 then .empty else .partialMessage := if_neg (by simp [hc])

/-- A Packet comes out of S6 alone: the message is held, and the leftover starts where it ends. -/
theorem processWith_ok {c : Contract} {chunk : List Byte} {s t : State} {p : Packet} {ri k : Nat}
    (h : processWith c chunk s = .next t) (hout : t.out = .process (.ok p ri k)) :
    t.complete = true ∧ t.used = s.before + ri ∧ c.length (s.gathered chunk) = .ok t.used := by
  obtain ⟨-, m, -, ⟨-, rfl⟩ | ⟨e, -, -, rfl⟩ | ⟨a, e, -, -, rfl⟩ | ⟨a, hd, off, plen, ⟨hl, -, hge⟩, -, -, rfl⟩⟩ :=
    processWith_next h <;> cases hout
  exact ⟨rfl, (Nat.add_sub_cancel' hge).symm, hl⟩

/-- An error keeps the bytes only when S3 or S4 answers `NotEnoughData`; any other leaves EMPTY. -/
theorem processWith_err {c : Contract} {chunk : List Byte} {s t : State} {e : Err} {k : Nat}
    (h : processWith c chunk s = .next t) (hout : t.out = .process (.err e k)) :
    (Undecided c chunk s ∧ e = .notEnoughData) ∨ t.phase = .empty := by
  obtain ⟨-, m, -, ⟨hu, rfl⟩ | ⟨e', -, -, rfl⟩ | ⟨a, e', -, -, rfl⟩ | ⟨a, hd, off, plen, -, -, -, rfl⟩⟩ :=
    processWith_next h <;> cases hout
  · exact .inl ⟨hu, rfl⟩
  · exact .inr (State.phase_of_empty rfl rfl)
  · exact .inr (State.phase_of_empty rfl rfl)

theorem not_undecided_of_whole {c : Contract} {chunk : List Byte} {s : State} {a : Nat}
    (hl : c.length (s.gathered chunk) = .ok a) (hle : a ≤ s.before + s.room chunk) : ¬ Undecided c chunk s := by
  rintro (h | ⟨b, h, hlt⟩) <;> cases hl.symm.trans h
  omega

/-- A full buffer is decided through a conforming contract (W2, W5), so an undecided PROCESS took the whole chunk. -/
theorem room_of_undecided {c : Contract} {chunk : List Byte} {s : State} (hconf : c.Conforming s.cap)
    (hb : s.before ≤ s.cap) (hu : Undecided c chunk s) : s.room chunk = chunk.length := by
  by_contra hne
  have hfull : s.before + s.room chunk = s.cap := by unfold State.room at *; omega
  have hlen := State.length_gathered s chunk hb
  have hfits := hconf.fits.2
  rcases hu with h | ⟨a, h, hlt⟩
  · exact hconf.decided _ (by omega) h
  · have := (hconf.bounded _ a h).2
    omega

/-- Settles O42, clause by clause from what an `Ok`, an error and an undecided PROCESS leave. -/
theorem phaseFollowsTheResult : Obligations.PhaseFollowsTheResult := by
  refine ⟨fun s t h => ?_, fun c chunk s t hconf hs h => ⟨fun p ri k hout => ?_, fun e k hout hd => ?_,
    fun a e k hl hle hout => ?_, fun hu => ?_⟩⟩
  · rw [exec_reset_next h]
    exact State.phase_of_empty rfl rfl
  · obtain ⟨hc, hused⟩ := processWith_ok h hout
    exact ⟨State.phase_of_holding hc, hused⟩
  · rcases processWith_err h hout with ⟨-, rfl⟩ | hempty
    · cases hd
    · exact hempty
  · exact (processWith_err h hout).resolve_left fun ⟨hu, _⟩ => not_undecided_of_whole hl hle hu
  · have hb : s.before ≤ s.cap := s.before_le_used.trans hs.inBounds
    obtain ⟨m, -, heq⟩ := processWith_of_undecided hb hu
    cases heq.symm.trans h
    have hused : s.before + s.room chunk = s.before + chunk.length := by rw [room_of_undecided hconf hb hu]
    refine ⟨hused, ?_⟩
    rw [State.phase_of_not_complete rfl]
    show (if s.before + s.room chunk = 0 then _ else _) = _
    rw [hused]
    simp only [Nat.add_eq_zero_iff, List.length_eq_zero_iff]

end Sys2Proof.Machine
end

section
/-! SUPPORT. The two primitives of `BUF` (R41): what each answers on either side of the capacity, and the bytes a read
gives after a write. -/

namespace Sys2Proof.Machine

theorem Memory.read_set_same (m : Memory) (a : Nat) (v : Byte) : Memory.read (Memory.set m a v) a = v := by
  rw [Memory.read, Memory.get_set, if_pos rfl, Option.getD_some]

theorem Memory.read_set_of_ne (m : Memory) {a b : Nat} (v : Byte) (h : b ≠ a) :
    Memory.read (Memory.set m a v) b = Memory.read m b :=
  Memory.read_eq_of_get_eq (by rw [Memory.get_set, if_neg h])

/-- A read gives the bytes in the order of their indices. -/
theorem Memory.readBytes_eq_map_range (m : Memory) (addr n : Nat) :
    Memory.readBytes m addr n = (List.range n).map (fun i => Memory.read m (addr + i)) := by
  apply List.ext_getElem?
  intro i
  rw [Memory.getElem?_readBytes, List.getElem?_map]
  by_cases hi : i < n
  · rw [if_pos hi, List.getElem?_range hi, Option.map_some]
  · rw [if_neg hi, List.getElem?_eq_none (by simpa using hi), Option.map_none]

theorem memWrite_of_lt {cap addr : Nat} (m : Memory) (v : Byte) (h : addr < cap) :
    memWrite cap m addr v = .ok (Memory.set m addr v) := if_pos h

theorem memWrite_of_le {cap addr : Nat} (m : Memory) (v : Byte) (h : cap ≤ addr) :
    memWrite cap m addr v = .error .bufferIndexOutOfRange := if_neg (Nat.not_lt.mpr h)

theorem memRead_eq (cap : Nat) (m : Memory) (addr n : Nat) :
    memRead cap m addr n =
      if addr + n ≤ cap then .ok ((List.range n).map (fun i => Memory.read m (addr + i)))
      else .error .bufferIndexOutOfRange := by
  rw [memRead, Memory.readBytes_eq_map_range]

theorem memRead_one_of_lt {cap addr : Nat} (m : Memory) (h : addr < cap) :
    memRead cap m addr 1 = .ok [Memory.read m addr] := if_pos h

/-- Settles O13: a write is `Memory.set` below the capacity, so the laws of `Memory.set` say what it leaves. -/
theorem bufferPrimitives : Obligations.BufferPrimitives := by
  intro cap m addr v
  refine ⟨fun h => ⟨Memory.set m addr v, memWrite_of_lt m v h, ?_, fun b hb => Memory.read_set_of_ne m v hb,
    fun hwf => Memory.wf_set hwf h⟩, memWrite_of_le m v, memRead_eq cap m addr⟩
  rw [memRead_one_of_lt _ h, Memory.read_set_same]

end Sys2Proof.Machine
end

section
/-! SUPPORT. Encoding laws: what the decoder reads at each row of R66 and R71, and its inversion: whatever it answers is one of
these. The statements of 30_encoding.md follow from the two. -/

namespace Sys2Proof

/-! ## The decoder, row by row -/

theorem decode_reset (v : Variant) : decode v (.command 0b000#3 []) = .ok .reset := by cases v <;> rfl

theorem decode_reset_with_operand (v : Variant) (b : Byte) (bs : List Byte) :
    decode v (.command 0b000#3 (b :: bs)) = .error .operandNotAllowed := by cases v <;> rfl

theorem decode_process (v : Variant) (w : List Byte) : decode v (.command 0b001#3 w) = .ok (.process w) := by
  cases v <;> rfl

theorem decode_lengthStream (w : List Byte) : decode .stream (.command 0b010#3 w) = .ok (.lengthStream w) := rfl
theorem decode_headerStream (w : List Byte) : decode .stream (.command 0b011#3 w) = .ok (.headerStream w) := rfl
theorem decode_validateStream (w : List Byte) : decode .stream (.command 0b100#3 w) = .ok (.validateStream w) := rfl
theorem decode_payloadStream (w : List Byte) : decode .stream (.command 0b101#3 w) = .ok (.payloadStream w) := rfl
theorem decode_lengthSerial (w : List Byte) : decode .serial (.command 0b010#3 w) = .ok (.lengthSerial w) := rfl
theorem decode_headerSerial (w : List Byte) : decode .serial (.command 0b011#3 w) = .ok (.headerSerial w) := rfl
theorem decode_validateSerial (w : List Byte) : decode .serial (.command 0b100#3 w) = .ok (.validateSerial w) := rfl
theorem decode_payloadSerial (w : List Byte) : decode .serial (.command 0b101#3 w) = .ok (.payloadSerial w) := rfl

theorem decode_reserved {op : BitVec 3} (h : op = 0b110#3 ∨ op = 0b111#3) (v : Variant) (w : List Byte) :
    decode v (.command op w) = .error (.reservedCommand op) := by
  rcases h with rfl | rfl <;> cases v <;> rfl

theorem decode_aduStreamHeader (b0 b1 b2 b3 b4 b5 b6 : Byte) :
    decode .stream (.frame [b0, b1, b2, b3, b4, b5, b6]) =
      .ok (.aduStreamHeader (be16 b0 b1) (be16 b2 b3) (be16 b4 b5) b6) := rfl

theorem decode_aduSerialHeader (b : Byte) : decode .serial (.frame [b]) = .ok (.aduSerialHeader b) := rfl

theorem decode_frame_of_other_length {v : Variant} {wire : List Byte} (h : wire.length ≠ Machine.hdrSize v) :
    decode v (.frame wire) = .error .notAFrame := by
  show decodeFrame v wire = _
  unfold decodeFrame
  split
  · exact (h rfl).elim
  · exact (h rfl).elim
  · rfl

/-! ## Encode, then decode -/

theorem Instr.variant_of_wf {i : Instr} {u v : Variant} (h : i.wf v = true) (hu : i.rowVariant = some u) : u = v := by
  simpa [Instr.wf, hu] using h

/-- Settles O1, by the rows of the decoder: a row of one variant is well formed under that strap alone. -/
theorem decodeOfEncode : Obligations.DecodeOfEncode := by
  intro v i h
  cases i with
  | reset => exact decode_reset v
  | process chunk => exact decode_process v chunk
  | lengthStream w => cases Instr.variant_of_wf h rfl; exact decode_lengthStream w
  | headerStream w => cases Instr.variant_of_wf h rfl; exact decode_headerStream w
  | validateStream w => cases Instr.variant_of_wf h rfl; exact decode_validateStream w
  | payloadStream w => cases Instr.variant_of_wf h rfl; exact decode_payloadStream w
  | lengthSerial w => cases Instr.variant_of_wf h rfl; exact decode_lengthSerial w
  | headerSerial w => cases Instr.variant_of_wf h rfl; exact decode_headerSerial w
  | validateSerial w => cases Instr.variant_of_wf h rfl; exact decode_validateSerial w
  | payloadSerial w => cases Instr.variant_of_wf h rfl; exact decode_payloadSerial w
  | aduStreamHeader t p l u =>
    cases Instr.variant_of_wf h rfl
    rw [encode, decode_aduStreamHeader, be16_hiByte_loByte, be16_hiByte_loByte, be16_hiByte_loByte]
  | aduSerialHeader a => cases Instr.variant_of_wf h rfl; exact decode_aduSerialHeader a

/-! ## Decode, then encode -/

/-- Everything the decoder can answer: the instruction whose encoding was presented, or one of three errors. -/
inductive DecodeAnswers (v : Variant) : Encoded → Except DecodeError Instr → Prop
  | row (i : Instr) : i.wf v = true → DecodeAnswers v (encode i) (.ok i)
  | resetOperand (b : Byte) (bs : List Byte) :
      DecodeAnswers v (.command 0b000#3 (b :: bs)) (.error .operandNotAllowed)
  | reserved (op : BitVec 3) (w : List Byte) : op = 0b110#3 ∨ op = 0b111#3 →
      DecodeAnswers v (.command op w) (.error (.reservedCommand op))
  | otherLength (wire : List Byte) : wire.length ≠ Machine.hdrSize v →
      DecodeAnswers v (.frame wire) (.error .notAFrame)

theorem DecodeAnswers.of_row {v : Variant} {e : Encoded} {i : Instr} (hd : decode v e = .ok i) (he : encode i = e)
    (hwf : i.wf v = true) : DecodeAnswers v e (decode v e) := by
  rw [hd, ← he]
  exact .row i hwf

/-- The eight values of the `OP` field, the two reserved ones together. -/
theorem op_cases : ∀ op : BitVec 3, op = 0b000#3 ∨ op = 0b001#3 ∨ op = 0b010#3 ∨ op = 0b011#3 ∨ op = 0b100#3 ∨
    op = 0b101#3 ∨ op = 0b110#3 ∨ op = 0b111#3 := by decide

theorem decode_command_answers (v : Variant) (op : BitVec 3) (w : List Byte) :
    DecodeAnswers v (.command op w) (decode v (.command op w)) := by
  rcases op_cases op with rfl | rfl | rfl | rfl | rfl | rfl | hres
  · cases w with
    | nil => exact .of_row (decode_reset v) rfl rfl
    | cons b bs => exact decode_reset_with_operand v b bs ▸ .resetOperand b bs
  · exact .of_row (decode_process v w) rfl rfl
  · cases v with
    | stream => exact .of_row (decode_lengthStream w) rfl rfl
    | serial => exact .of_row (decode_lengthSerial w) rfl rfl
  · cases v with
    | stream => exact .of_row (decode_headerStream w) rfl rfl
    | serial => exact .of_row (decode_headerSerial w) rfl rfl
  · cases v with
    | stream => exact .of_row (decode_validateStream w) rfl rfl
    | serial => exact .of_row (decode_validateSerial w) rfl rfl
  · cases v with
    | stream => exact .of_row (decode_payloadStream w) rfl rfl
    | serial => exact .of_row (decode_payloadSerial w) rfl rfl
  · exact decode_reserved hres v w ▸ .reserved op w hres

theorem decode_frame_answers (v : Variant) (wire : List Byte) :
    DecodeAnswers v (.frame wire) (decode v (.frame wire)) := by
  by_cases hlen : wire.length = Machine.hdrSize v
  · cases v with
    | stream =>
      have hseven : wire.length = 7 := hlen
      obtain ⟨b0, b1, b2, b3, b4, b5, b6, rest, rfl⟩ := Machine.exists_seven hseven.ge
      obtain rfl : rest = [] := List.length_eq_zero_iff.mp (by simpa using hseven)
      refine .of_row (decode_aduStreamHeader b0 b1 b2 b3 b4 b5 b6) ?_ rfl
      simp only [encode, hiByte_be16, loByte_be16]
    | serial =>
      obtain ⟨b, rfl⟩ := List.length_eq_one_iff.mp hlen
      exact .of_row (decode_aduSerialHeader b) rfl rfl
  · exact decode_frame_of_other_length hlen ▸ .otherLength wire hlen

theorem decode_answers (v : Variant) (e : Encoded) : DecodeAnswers v e (decode v e) := by
  cases e with
  | command op w => exact decode_command_answers v op w
  | frame wire => exact decode_frame_answers v wire

/-- Settles O2: the decoder answers an instruction only for its own encoding. -/
theorem encodeOfDecode : Obligations.EncodeOfDecode := by
  intro v e i h
  have ha := decode_answers v e
  rw [h] at ha
  cases ha with
  | row _ hwf => exact ⟨rfl, hwf⟩

/-! ## The command table -/

/-- Settles O3: the rows of R66, and the step that refuses what they do not list. -/
theorem commandWordSelectsTheOperation : Obligations.CommandWordSelectsTheOperation := by
  intro w
  refine ⟨decode_reset, fun v => decode_process v w, decode_lengthStream w, decode_headerStream w,
    decode_validateStream w, decode_payloadStream w, decode_lengthSerial w, decode_headerSerial w,
    decode_validateSerial w, decode_payloadSerial w, fun s op rest hop hs => ?_⟩
  exact Machine.step_of_rejected hs (decode_reserved hop s.variant w)

/-- Two rows whose fixed bits differ where both fix them fit no common key. -/
theorem OpcodeRow.not_both_fit {r q : OpcodeRow} (h : r.value &&& q.mask ≠ q.value &&& r.mask) (key : BitVec 4) :
    ¬ (r.fits key = true ∧ q.fits key = true) := by
  rintro ⟨hr, hq⟩
  have hr : key &&& r.mask = r.value := of_decide_eq_true hr
  have hq : key &&& q.mask = q.value := of_decide_eq_true hq
  apply h
  rw [← hr, ← hq, BitVec.and_assoc, BitVec.and_assoc, BitVec.and_comm r.mask]

theorem opcodeRows_clash :
    opcodeRows.Pairwise (fun r q => r.value &&& q.mask ≠ q.value &&& r.mask) := by decide

theorem keyOf_keyVariant : ∀ key : BitVec 4, keyOf (keyVariant key) (key.setWidth 3) = key := by decide

/-- A decode key is a strap and a command. -/
theorem decodeKey_eq_decode (key : BitVec 4) (w : List Byte) :
    decodeKey key w = decode (keyVariant key) (.command (key.setWidth 3) w) := by
  rw [decode, keyOf_keyVariant]

/-- A command that encodes a well-formed instruction has the key of that instruction's row. -/
theorem exists_row_of_command {v : Variant} {i : Instr} {op : BitVec 3} {w : List Byte} (hwf : i.wf v = true)
    (he : encode i = .command op w) :
    ∃ r ∈ opcodeRows, r.fits (keyOf v op) = true ∧ r.mnemonic = i.mnemonic := by
  cases i with
  | reset => cases he; cases v <;> decide
  | process chunk => cases he; rw [Instr.mnemonic]; cases v <;> decide
  | aduStreamHeader t p l u => cases he
  | aduSerialHeader a => cases he
  | _ => cases he; cases Instr.variant_of_wf hwf rfl; rw [Instr.mnemonic]; decide

theorem reserved_of_no_row_fits : ∀ key : BitVec 4, (∀ r ∈ opcodeRows, r.fits key = false) →
    key.setWidth 3 = 0b110#3 ∨ key.setWidth 3 = 0b111#3 := by decide

/-- Settles O4: rows clash in their fixed bits, and a key is a strap and a command, which O2 and the reserved commands
decide. -/
theorem opcodeTableDecidesEveryKey : Obligations.OpcodeTableDecidesEveryKey := by
  refine ⟨opcodeRows_clash.imp OpcodeRow.not_both_fit, fun key w => ⟨fun i hi => ?_, fun hnone => ?_⟩⟩
  · rw [decodeKey_eq_decode] at hi
    obtain ⟨he, hwf⟩ := encodeOfDecode _ _ i hi
    exact keyOf_keyVariant key ▸ exists_row_of_command hwf he
  · exact ⟨_, (decodeKey_eq_decode key w).trans (decode_reserved (reserved_of_no_row_fits key hnone) _ w)⟩

/-- Settles O5, by evaluation of seven fixed words. -/
theorem writtenOutWordsDecode : Obligations.WrittenOutWordsDecode := by
  unfold Obligations.WrittenOutWordsDecode
  decide

namespace Machine

/-- Settles O6, by the two laws of a step at the head of the script. -/
theorem stepRunsTheDecodedInstruction : Obligations.StepRunsTheDecodedInstruction :=
  fun _ _ _ h => ⟨fun _ => step_of_decoded h, fun _ => step_of_rejected h⟩

/-! ## The header rows -/

/-- Settles O30: the fields are the big-endian pairs of the bytes, and `HEADER.STREAM` reads the same ones. -/
theorem aduStreamHeaderFields : Obligations.AduStreamHeaderFields := by
  refine ⟨fun _ _ _ _ _ => rfl, fun b0 b1 b2 b3 b4 b5 b6 => ⟨be16 b0 b1, be16 b2 b3, be16 b4 b5, toNat_be16 b0 b1,
    toNat_be16 b2 b3, toNat_be16 b4 b5, decode_aduStreamHeader b0 b1 b2 b3 b4 b5 b6, fun s => ?_⟩⟩
  show Host.Outcome.next _ = Host.Outcome.next (s.returns (.header (streamHeader [b0, b1, b2, b3, b4, b5, b6])))
  rw [streamHeader_of_bytes]

/-- Settles O31: both the extractor and `HEADER.SERIAL` return the byte as the address. -/
theorem aduSerialHeaderField : Obligations.AduSerialHeaderField :=
  fun b _ => ⟨decode_aduSerialHeader b, rfl, rfl⟩

/-! ## Status codes -/

theorem Err.toNat_code_le (e : Err) : e.code.toNat ≤ 4 := by cases e <;> decide

theorem ProcessResult.toNat_status_le (r : ProcessResult) : r.status.toNat ≤ 4 := by
  cases r with
  | ok p ri k => exact Nat.zero_le 4
  | err e k => exact e.toNat_code_le

theorem Result.toNat_status_le {α : Type} (r : Result α) : r.status.toNat ≤ 4 := by
  cases r with
  | ok v => exact Nat.zero_le 4
  | err e => exact e.toNat_code_le

theorem Err.destructive_iff (e : Err) : e.destructive = true ↔ e ≠ .notEnoughData := by cases e <;> decide

/-- Settles O56: the numbers are those of the table of R67, and no result has another. -/
theorem statusCodes : Obligations.StatusCodes :=
  ⟨fun _ _ _ => rfl, fun _ => rfl, fun _ => rfl, fun _ => rfl, fun _ => rfl, ProcessResult.toNat_status_le,
    fun _ _ => rfl, fun _ => ⟨rfl, rfl, rfl, rfl⟩, fun _ => Result.toNat_status_le, Err.destructive_iff⟩

end Machine

end Sys2Proof
end

section
/-! SUPPORT. Steady framers (I1, I3) through a conforming contract: PROCESS answers, a Packet ends past what was buffered, and
the state after is steady again (R143). So DRAIN shortens its bytes at every PROCESS, and ends. -/

namespace Sys2Proof.Machine

theorem State.Steady.before_le_cap {c : Contract} {s : State} (h : s.Steady c) : s.before ≤ s.cap :=
  s.before_le_used.trans h.inBounds

/-- What was buffered was no whole ADU, and by causality (W4) a length found now was there already if it were that short. -/
theorem State.Steady.before_lt_length {c : Contract} {chunk : List Byte} {s : State} {a : Nat}
    (hconf : c.Conforming s.cap) (hs : s.Steady c) (hl : c.length (s.gathered chunk) = .ok a) : s.before < a := by
  cases hc : s.complete with
  | true =>
    rw [State.before_of_complete hc]
    exact (hconf.bounded _ a hl).1
  | false =>
    by_contra hle
    have hb := hs.before_le_cap
    have hwindow : c.length s.window = .ok a := by
      rw [← State.kept_of_not_complete hc, ← State.gathered_prefix_kept s chunk hb]
      exact hconf.causal _ a s.before hl (Nat.not_lt.mp hle) (by rw [State.length_gathered s chunk hb]; omega)
    rw [State.before_of_not_complete hc] at hle
    rcases hs.unfinished hc with hmore | ⟨b, hlong, hlt⟩
    · cases hwindow.symm.trans hmore
    · cases hwindow.symm.trans hlong
      exact hle hlt

theorem State.Steady.of_undecided {c : Contract} {chunk : List Byte} {s : State} {m : Memory} (hb : s.before ≤ s.cap)
    (hm : Appends s chunk m) (hu : Undecided c chunk s) : (s.appended chunk m).Steady c where
  inBounds := s.before_add_room_le chunk hb
  unfinished _ := by
    rw [State.Unfinished, hm.window_appended]
    exact hu

theorem State.Steady.of_empty {c : Contract} {s : State} (hconf : c.Conforming s.cap) (hused : s.used = 0) :
    s.Steady c where
  inBounds := hused ▸ Nat.zero_le _
  unfinished _ := by
    have hw : s.window = [] := List.length_eq_zero_iff.mp (by rw [State.length_window, hused])
    exact .inl (hw ▸ hconf.undecidedEmpty)

theorem State.Steady.of_complete {c : Contract} {s : State} (hc : s.complete = true) (hb : s.used ≤ s.cap) :
    s.Steady c :=
  ⟨hb, fun h => nomatch hc.symm.trans h⟩

/-- Steadiness does not speak of the output. -/
theorem State.Steady.returns {c : Contract} {s : State} (h : s.Steady c) (o : Output) : (s.returns o).Steady c :=
  ⟨h.inBounds, h.unfinished⟩

theorem State.Steady.process {c : Contract} {chunk : List Byte} {s : State} (hconf : c.Conforming s.cap)
    (hs : s.Steady c) : ∃ t, processWith c chunk s = .next t ∧ t.Steady c := by
  have ha := processWith_answers c chunk s
  generalize processWith c chunk s = r at ha
  cases ha with
  | outOfRange hb => exact absurd hs.before_le_cap (Nat.not_le.mpr hb)
  | shortLength a _ hl hlt => exact absurd (hs.before_lt_length hconf hl) (Nat.lt_asymm hlt)
  | retained m hb hm hu => exact ⟨_, rfl, (State.Steady.of_undecided hb hm hu).returns _⟩
  | discarded m e _ _ _ _ => exact ⟨_, rfl, .of_empty hconf rfl⟩
  | unbuilt m a e _ _ _ _ => exact ⟨_, rfl, .of_empty hconf rfl⟩
  | packet m a hd off plen hb _ hclaim _ _ =>
    obtain ⟨-, hle, -⟩ := hclaim
    exact ⟨_, rfl, .of_complete rfl (hle.trans (s.before_add_room_le chunk hb))⟩

theorem State.Steady.leftover_index_pos {c : Contract} {chunk : List Byte} {s t : State} {p : Packet} {ri k : Nat}
    (hconf : c.Conforming s.cap) (hs : s.Steady c) (h : processWith c chunk s = .next t)
    (hout : t.out = .process (.ok p ri k)) : 1 ≤ ri := by
  obtain ⟨-, hused, hl⟩ := processWith_ok h hout
  have := hs.before_lt_length hconf hl
  omega

/-! ## DRAIN -/

theorem drainLoop_of_last {c : Contract} {bytes : List Byte} {s t : State} (fuel : Nat)
    (h : processWith c bytes s = .next t)
    (hlast : ∀ p ri k, t.out = .process (.ok p ri k) → leftover bytes ri = []) :
    drainLoop c (fuel + 1) bytes s = .next [t] := by
  rw [drainLoop]
  simp only [h]
  split
  · rw [if_pos (by rw [hlast _ _ _ ‹_›]; rfl)]
  · rfl

theorem drainLoop_of_leftover {c : Contract} {bytes : List Byte} {s t : State} {p : Packet} {ri k fuel : Nat}
    {ts : List State} (h : processWith c bytes s = .next t) (hout : t.out = .process (.ok p ri k))
    (hmore : leftover bytes ri ≠ []) (hrest : drainLoop c fuel (leftover bytes ri) t = .next ts) :
    drainLoop c (fuel + 1) bytes s = .next (t :: ts) := by
  rw [drainLoop]
  simp only [h, hout, hrest, List.isEmpty_eq_false_iff.mpr hmore, Bool.false_eq_true, if_false]

/-- Each PROCESS that leaves bytes over took at least one, so fuel above the number of bytes is never used up. -/
theorem drainLoop_ends {c : Contract} (fuel : Nat) {bytes : List Byte} {s : State} (hconf : c.Conforming s.cap)
    (hs : s.Steady c) (hfuel : bytes.length < fuel) :
    ∃ ts, drainLoop c fuel bytes s = .next ts ∧ 1 ≤ ts.length ∧ ts.length ≤ max 1 bytes.length := by
  induction fuel generalizing bytes s with
  | zero => omega
  | succ fuel ih =>
    obtain ⟨t, ht, hsteady⟩ := hs.process (chunk := bytes) hconf
    by_cases hlast : ∀ p ri k, t.out = .process (.ok p ri k) → leftover bytes ri = []
    · exact ⟨[t], drainLoop_of_last fuel ht hlast, le_rfl, le_max_left _ _⟩
    · push Not at hlast
      obtain ⟨p, ri, k, hout, hmore⟩ := hlast
      have hri := hs.leftover_index_pos hconf ht hout
      have hpos := List.length_pos_iff.mpr hmore
      have hlen : (leftover bytes ri).length = bytes.length - ri := List.length_drop
      have hcap : t.cap = s.cap := (processWith_straps ht).2
      obtain ⟨ts, hts, -, hle⟩ := ih (bytes := leftover bytes ri) (hcap ▸ hconf) hsteady (by omega)
      refine ⟨t :: ts, drainLoop_of_leftover ht hout hmore hts, Nat.le_add_left _ _, ?_⟩
      rw [List.length_cons]
      omega

/-- Settles O47: the fuel of DRAIN is one more than the number of its bytes. -/
theorem drainEnds : Obligations.DrainEnds :=
  fun _ bytes _ hconf hs => drainLoop_ends (bytes.length + 1) hconf hs (Nat.lt_succ_self _)

end Sys2Proof.Machine
end

section
/-! SUPPORT. Purity (R81): the contract operations called on their own, and two PROCESS that query the contract about the same
window with the same numbers of bytes buffered and appended. -/

namespace Sys2Proof.Machine

/-- Each contract operation answers an output that its window fixes. -/
theorem exec_contract_operation {f : List Byte → Instr}
    (hf : f ∈ [Instr.lengthStream, Instr.headerStream, Instr.validateStream, Instr.payloadStream,
      Instr.lengthSerial, Instr.headerSerial, Instr.validateSerial, Instr.payloadSerial]) (w : List Byte) :
    ∃ o : Output, ∀ s : State, exec (f w) s = .next (s.returns o) := by
  simp only [List.mem_cons, List.not_mem_nil, or_false] at hf
  rcases hf with rfl | rfl | rfl | rfl | rfl | rfl | rfl | rfl
  · exact ⟨.length (streamLength w), fun _ => rfl⟩
  · exact ⟨.header (streamHeader w), fun _ => rfl⟩
  · exact ⟨.validate (streamValidate w), fun _ => rfl⟩
  · exact ⟨.payload (streamPayload w), fun _ => rfl⟩
  · exact ⟨.length (serialLengthOp Config.serialLength w), fun _ => rfl⟩
  · exact ⟨.header (serialHeader w), fun _ => rfl⟩
  · exact ⟨.validate (serialValidate Config.serialCheck w), fun _ => rfl⟩
  · exact ⟨.payload (serialPayload Config.serialCheck w), fun _ => rfl⟩

section
variable {c : Contract} {chunk1 chunk2 : List Byte} {s1 s2 : State}

theorem undecided_congr (hbefore : s1.before = s2.before) (hroom : s1.room chunk1 = s2.room chunk2)
    (hgathered : s1.gathered chunk1 = s2.gathered chunk2) : Undecided c chunk1 s1 ↔ Undecided c chunk2 s2 := by
  rw [Undecided, Undecided, hbefore, hroom, hgathered]

theorem claims_congr {a : Nat} (hbefore : s1.before = s2.before) (hroom : s1.room chunk1 = s2.room chunk2)
    (hgathered : s1.gathered chunk1 = s2.gathered chunk2) : Claims c chunk1 s1 a ↔ Claims c chunk2 s2 a := by
  rw [Claims, Claims, hbefore, hroom, hgathered]

/-- The result of PROCESS is fixed by the gathered window and by how many of its bytes were buffered and appended: each case
of its answers is decided by these alone. -/
theorem processWith_out_congr {t1 : State} (hb : s2.before ≤ s2.cap) (hbefore : s1.before = s2.before)
    (hroom : s1.room chunk1 = s2.room chunk2) (hgathered : s1.gathered chunk1 = s2.gathered chunk2)
    (h : processWith c chunk1 s1 = .next t1) : ∃ t2, processWith c chunk2 s2 = .next t2 ∧ t2.out = t1.out := by
  obtain ⟨-, m1, -, ⟨hu, rfl⟩ | ⟨e, he, hl, rfl⟩ | ⟨a, e, hc, hf, rfl⟩ | ⟨a, hd, off, plen, hc, hh, hp, rfl⟩⟩ :=
    processWith_next h
  case inl =>
    obtain ⟨m2, -, heq⟩ := processWith_of_undecided hb ((undecided_congr hbefore hroom hgathered).mp hu)
    exact ⟨_, heq, by rw [State.returns_out, State.returns_out, hroom]⟩
  case inr.inl =>
    obtain ⟨m2, -, heq⟩ := processWith_of_length_error hb (hgathered ▸ hl) he
    exact ⟨_, heq, by rw [State.returns_out, State.returns_out, hroom]⟩
  case inr.inr.inl =>
    obtain ⟨m2, -, heq⟩ :=
      processWith_of_build_error hb ((claims_congr hbefore hroom hgathered).mp hc) (hgathered ▸ hf)
    exact ⟨_, heq, by rw [State.returns_out, State.returns_out, hbefore]⟩
  case inr.inr.inr =>
    obtain ⟨m2, -, heq⟩ :=
      processWith_of_packet hb ((claims_congr hbefore hroom hgathered).mp hc) (hgathered ▸ hh) (hgathered ▸ hp)
    exact ⟨_, heq, by rw [hbefore]⟩

end

/-- Settles O29: the operations' outputs are written over the window, and PROCESS of the same strap queries one contract. -/
theorem contractOperationsArePure : Obligations.ContractOperationsArePure := by
  refine ⟨fun _ hf => exec_contract_operation hf, fun chunk1 chunk2 s1 s2 hv _ hb hbefore hroom hgathered t1 h => ?_⟩
  rw [exec_process, hv] at h
  rw [exec_process]
  exact processWith_out_congr hb hbefore hroom hgathered h

end Sys2Proof.Machine
end

section
/-! SUPPORT. The STREAM contract (41_stream_variant.md): what each operation answers on its own, the cases of `LENGTH`, `HEADER`,
`VALIDATE` and `PAYLOAD`, and the conditions W1 to W6. -/

namespace Sys2Proof.Machine

/-! ## The STREAM operations answer the contract's result and write nothing else -/

theorem exec_lengthStream (w : List Byte) (s : State) :
    exec (.lengthStream w) s = .next { s with out := .length (streamLength w) } := rfl

theorem exec_headerStream (w : List Byte) (s : State) :
    exec (.headerStream w) s = .next { s with out := .header (streamHeader w) } := rfl

theorem exec_validateStream (w : List Byte) (s : State) :
    exec (.validateStream w) s = .next { s with out := .validate (streamValidate w) } := rfl

theorem exec_payloadStream (w : List Byte) (s : State) :
    exec (.payloadStream w) s = .next { s with out := .payload (streamPayload w) } := rfl

theorem streamPayload_of_short {w : List Byte} (h : w.length < 7) : streamPayload w = .err .notEnoughData := by
  rw [streamPayload, streamValidate_of_short h, payloadFrom]

/-- Settles O17, by the law of `LENGTH.STREAM` on each kind of window. -/
theorem lengthStreamResult : Obligations.LengthStreamResult := by
  refine fun w s => ⟨fun hshort => ?_, fun hi lo h l => ?_⟩
  · rw [exec_lengthStream, streamLength_of_short hshort]
  · rw [exec_lengthStream, streamLength_of_bytes h l]

/-- Settles O18: the fields are the big-endian pairs of the first six bytes. -/
theorem headerStreamResult : Obligations.HeaderStreamResult := by
  refine fun w s => ⟨fun hshort => ?_, fun b0 b1 b2 b3 b4 b5 b6 rest hw => ⟨be16 b0 b1, be16 b2 b3, be16 b4 b5,
    toNat_be16 b0 b1, toNat_be16 b2 b3, toNat_be16 b4 b5, ?_⟩⟩
  · rw [exec_headerStream, streamHeader_of_short hshort]
  · rw [exec_headerStream, hw, streamHeader_of_bytes]

/-- Settles O19, by the law of `VALIDATE.STREAM` on each kind of window. -/
theorem validateStreamResult : Obligations.ValidateStreamResult := by
  refine fun w s => ⟨fun hshort => ?_, fun hi lo hw h l => ?_⟩
  · rw [exec_validateStream, streamValidate_of_short hshort]
  · rw [exec_validateStream, streamValidate_of_bytes hw h l]

/-- Settles O20, by the law of `PAYLOAD.STREAM` on each kind of window. -/
theorem payloadStreamResult : Obligations.PayloadStreamResult := by
  refine fun w s => ⟨fun hshort => ?_, fun hi lo hw h l => ?_⟩
  · rw [exec_payloadStream, streamPayload_of_short hshort]
  · rw [exec_payloadStream, streamPayload_of_bytes hw h l]

/-! ## The cases of each operation -/

/-- `LENGTH.STREAM` asks for more below six bytes and only there, and a length that it gives is 6 to 260. -/
theorem streamLength_cases (w : List Byte) :
    (w.length < 6 ∧ streamLength w = .err .notEnoughData) ∨
    (6 ≤ w.length ∧ streamLength w = .err .badLength) ∨
    (6 ≤ w.length ∧ ∃ a, 6 ≤ a ∧ a ≤ 260 ∧ streamLength w = .ok a) := by
  rcases Nat.lt_or_ge w.length 6 with hshort | hlong
  · exact .inl ⟨hshort, streamLength_of_short hshort⟩
  · obtain ⟨hi, lo, h, l⟩ := exists_length_field hlong
    by_cases hbig : hi.toNat * 256 + lo.toNat + 6 > 260
    · exact .inr (.inl ⟨hlong, by rw [streamLength_of_bytes h l, if_pos hbig]⟩)
    · exact .inr (.inr ⟨hlong, _, Nat.le_add_left _ _, Nat.not_lt.mp hbig, by rw [streamLength_of_bytes h l, if_neg hbig]⟩)

theorem streamLength_ok {w : List Byte} {a : Nat} (h : streamLength w = .ok a) : 6 ≤ w.length ∧ 6 ≤ a ∧ a ≤ 260 := by
  rcases streamLength_cases w with ⟨-, he⟩ | ⟨-, he⟩ | ⟨hlong, b, hlo, hhi, he⟩ <;> cases he.symm.trans h
  exact ⟨hlong, hlo, hhi⟩

theorem streamLength_undecided_iff (w : List Byte) : streamLength w = .err .notEnoughData ↔ w.length < 6 := by
  refine ⟨fun h => ?_, streamLength_of_short⟩
  rcases streamLength_cases w with ⟨hshort, -⟩ | ⟨-, he⟩ | ⟨-, a, -, -, he⟩
  · exact hshort
  · cases he.symm.trans h
  · cases he.symm.trans h

theorem streamHeader_cases (w : List Byte) :
    streamHeader w = .err .notEnoughData ∨ ∃ hd, streamHeader w = .ok hd := by
  rcases Nat.lt_or_ge w.length 7 with hshort | hlong
  · exact .inl (streamHeader_of_short hshort)
  · obtain ⟨b0, b1, b2, b3, b4, b5, b6, rest, rfl⟩ := exists_seven hlong
    exact .inr ⟨_, streamHeader_of_bytes b0 b1 b2 b3 b4 b5 b6 rest⟩

theorem streamValidate_cases (w : List Byte) :
    streamValidate w = .err .notEnoughData ∨ streamValidate w = .ok () := by
  rcases Nat.lt_or_ge w.length 7 with hshort | hlong
  · exact .inl (streamValidate_of_short hshort)
  · obtain ⟨hi, lo, h, l⟩ := exists_length_field (Nat.le_of_succ_le hlong)
    rw [streamValidate_of_bytes hlong h l]
    exact ite_eq_or_eq _ _ _

theorem streamPayload_cases (w : List Byte) :
    streamPayload w = .err .notEnoughData ∨ ∃ r, streamPayload w = .ok r := by
  unfold streamPayload
  rcases streamValidate_cases w with h | h <;> rw [h]
  · exact .inl rfl
  · exact .inr ⟨_, rfl⟩

theorem Result.error_eq_of_cases {α : Type} {r : Result α} {e e' : Err} (hr : r = .err e ∨ ∃ v, r = .ok v)
    (h : r = .err e') : e' = e := by
  rcases hr with he | ⟨v, hv⟩
  · cases he.symm.trans h
    rfl
  · cases hv.symm.trans h

/-- Settles O21, by the cases of each operation. -/
theorem streamErrorKinds : Obligations.StreamErrorKinds := by
  refine fun w e => ⟨fun h => ?_, fun h => ?_, fun h => ?_, fun h => ?_⟩
  · rcases streamLength_cases w with ⟨-, he⟩ | ⟨-, he⟩ | ⟨-, a, -, -, he⟩ <;> cases he.symm.trans h
    · exact .inl rfl
    · exact .inr rfl
  · exact Result.error_eq_of_cases (streamHeader_cases w) h
  · exact Result.error_eq_of_cases ((streamValidate_cases w).imp_right fun hv => ⟨(), hv⟩) h
  · exact Result.error_eq_of_cases (streamPayload_cases w) h

/-! ## W1 to W6 -/

/-- `LENGTH.STREAM` reads bytes 4 and 5 alone: windows that agree there have the same length. -/
theorem streamLength_congr {w w' : List Byte} (h : w[4]? = w'[4]?) (l : w[5]? = w'[5]?) :
    streamLength w = streamLength w' := by
  rcases Nat.lt_or_ge w.length 6 with hshort | hlong
  · have hshort' : w'.length < 6 :=
      Nat.lt_succ_of_le (List.getElem?_eq_none_iff.mp (l ▸ List.getElem?_eq_none (Nat.le_of_lt_succ hshort)))
    rw [streamLength_of_short hshort, streamLength_of_short hshort']
  · obtain ⟨hi, lo, hhi, hlo⟩ := exists_length_field hlong
    rw [streamLength_of_bytes hhi hlo, streamLength_of_bytes (h ▸ hhi) (l ▸ hlo)]

theorem streamLength_append {w : List Byte} (h : 6 ≤ w.length) (x : List Byte) :
    streamLength (w ++ x) = streamLength w :=
  streamLength_congr (List.getElem?_append_left (by omega)) (List.getElem?_append_left (by omega))

theorem streamLength_take {m : Nat} (h : 6 ≤ m) (w : List Byte) : streamLength (w.take m) = streamLength w :=
  streamLength_congr (List.getElem?_take_of_lt (by omega)) (List.getElem?_take_of_lt (by omega))

theorem streamContract_conforming {cap : Nat} (hcap : 260 ≤ cap) : streamContract.Conforming cap where
  fits := ⟨show 1 ≤ 260 by decide, hcap⟩
  bounded w a h := by
    obtain ⟨-, hlo, hhi⟩ := streamLength_ok h
    exact ⟨Nat.le_trans (by decide) hlo, hhi⟩
  stable w a x h := by
    obtain ⟨hlong, -, -⟩ := streamLength_ok h
    exact (streamLength_append hlong x).trans h
  causal w a m h ham _ := by
    obtain ⟨-, hlo, -⟩ := streamLength_ok h
    exact (streamLength_take (hlo.trans ham) w).trans h
  decided w hw h := by
    have hfull : 260 ≤ w.length := hw
    have hshort := (streamLength_undecided_iff w).mp h
    omega
  undecidedEmpty := (streamLength_undecided_iff []).mpr (show 0 < 6 by decide)

/-- Settles O22: a length is decided by bytes 4 and 5, so six bytes fix it for every longer window (W3) and it is never
below six (W4). -/
theorem streamContractConforms : Obligations.StreamContractConforms := fun _ => streamContract_conforming

end Sys2Proof.Machine
end

section
/-! SUPPORT. The SERIAL contract (42_serial_variant.md): what each operation answers on its own, for whatever the two open
parameters answer, and the conditions W1 to W6 as conditions on `SERIAL_LENGTH`. -/

namespace Sys2Proof.Machine

section
variable {serialLength : List Byte → SerialLength} {serialCheck : List Byte → Bool}

/-! ## `LENGTH.SERIAL`, by the answer of `SERIAL_LENGTH` -/

theorem serialLengthOp_of_notEnoughData {w : List Byte} (h : serialLength w = .notEnoughData) :
    serialLengthOp serialLength w = .err .notEnoughData := by
  rw [serialLengthOp, h]

theorem serialLengthOp_of_badFuncCode {w : List Byte} (h : serialLength w = .badFuncCode) :
    serialLengthOp serialLength w = .err .badFuncCode := by
  rw [serialLengthOp, h]

theorem serialLengthOp_of_ok {w : List Byte} {a : Nat} (h : serialLength w = .ok a) :
    serialLengthOp serialLength w = if a > 256 then .err .badLength else .ok a := by
  rw [serialLengthOp, h]
  rfl

/-- `LENGTH.SERIAL` gives a length exactly when `SERIAL_LENGTH` gives it within the bound. -/
theorem serialLengthOp_eq_ok_iff {w : List Byte} {a : Nat} :
    serialLengthOp serialLength w = .ok a ↔ serialLength w = .ok a ∧ a ≤ 256 := by
  cases h : serialLength w with
  | notEnoughData => simp [serialLengthOp_of_notEnoughData h]
  | badFuncCode => simp [serialLengthOp_of_badFuncCode h]
  | ok b =>
    rw [serialLengthOp_of_ok h]
    split
    · simp only [reduceCtorEq, SerialLength.ok.injEq, false_iff]
      omega
    · simp only [Result.ok.injEq, SerialLength.ok.injEq]
      omega

/-- It asks for more exactly when `SERIAL_LENGTH` does: the bound answers another error. -/
theorem serialLengthOp_undecided_iff {w : List Byte} :
    serialLengthOp serialLength w = .err .notEnoughData ↔ serialLength w = .notEnoughData := by
  refine ⟨fun hop => ?_, serialLengthOp_of_notEnoughData⟩
  cases h : serialLength w with
  | notEnoughData => rfl
  | badFuncCode => cases (serialLengthOp_of_badFuncCode h).symm.trans hop
  | ok b =>
    rw [serialLengthOp_of_ok h] at hop
    split at hop <;> cases hop

theorem serialContract_length_eq_ok_iff {w : List Byte} {a : Nat} :
    (serialContract serialLength serialCheck).length w = .ok a ↔ serialLength w = .ok a ∧ a ≤ 256 :=
  serialLengthOp_eq_ok_iff

theorem serialContract_undecided_iff {w : List Byte} :
    (serialContract serialLength serialCheck).length w = .err .notEnoughData ↔ serialLength w = .notEnoughData :=
  serialLengthOp_undecided_iff

/-! ## `HEADER.SERIAL` -/

/-- The header of a non-empty prefix is the first byte. -/
theorem serialHeader_take {w : List Byte} {a : Nat} (ha : 1 ≤ a) (haw : a ≤ w.length) :
    ∃ address, w[0]? = some address ∧ serialHeader (w.take a) = .ok (.serial address) := by
  cases w with
  | nil => exact absurd (ha.trans haw) (by decide)
  | cons address rest =>
    obtain ⟨n, rfl⟩ := Nat.exists_eq_add_of_le' ha
    exact ⟨address, rfl, rfl⟩

/-! ## `VALIDATE.SERIAL` and `PAYLOAD.SERIAL`, by the answer of `SERIAL_CHECK` -/

theorem serialValidate_of_long {w : List Byte} (h : 3 ≤ w.length) :
    serialValidate serialCheck w = if serialCheck w then .ok () else .err .badErrorCheck :=
  if_neg (Nat.not_lt.mpr h)

theorem serialPayload_of_short {w : List Byte} (h : w.length < 3) :
    serialPayload serialCheck w = .err .notEnoughData := by
  rw [serialPayload, serialValidate_of_short h, payloadFrom]

theorem serialPayload_of_long {w : List Byte} (h : 3 ≤ w.length) :
    serialPayload serialCheck w = if serialCheck w then .ok (1, w.length - 3) else .err .badErrorCheck := by
  rw [serialPayload, serialValidate_of_long h]
  split <;> simp [payloadFrom, hdrSize, trailer, Nat.sub_sub]

end

/-! ## The SERIAL operations answer the contract's result and write nothing else -/

theorem exec_lengthSerial (w : List Byte) (s : State) :
    exec (.lengthSerial w) s = .next { s with out := .length (serialLengthOp Config.serialLength w) } := rfl

theorem exec_headerSerial (w : List Byte) (s : State) :
    exec (.headerSerial w) s = .next { s with out := .header (serialHeader w) } := rfl

theorem exec_validateSerial (w : List Byte) (s : State) :
    exec (.validateSerial w) s = .next { s with out := .validate (serialValidate Config.serialCheck w) } := rfl

theorem exec_payloadSerial (w : List Byte) (s : State) :
    exec (.payloadSerial w) s = .next { s with out := .payload (serialPayload Config.serialCheck w) } := rfl

/-- Settles O23, by the law of `LENGTH.SERIAL` at each answer of `SERIAL_LENGTH`. -/
theorem lengthSerialResult : Obligations.LengthSerialResult := by
  intro w s
  rw [exec_lengthSerial]
  cases h : Config.serialLength w with
  | notEnoughData => rw [serialLengthOp_of_notEnoughData h]
  | badFuncCode => rw [serialLengthOp_of_badFuncCode h]
  | ok a => rw [serialLengthOp_of_ok h]

/-- Settles O24: both kinds of window are the cases of `HEADER.SERIAL` itself. -/
theorem headerSerialResult : Obligations.HeaderSerialResult :=
  fun s => ⟨exec_headerSerial [] s, fun address rest => exec_headerSerial (address :: rest) s⟩

/-- Settles O25, by the law of `VALIDATE.SERIAL` on each side of three bytes. -/
theorem validateSerialResult : Obligations.ValidateSerialResult := by
  intro w s
  rw [exec_validateSerial]
  rcases Nat.lt_or_ge w.length 3 with hshort | hlong
  · rw [serialValidate_of_short hshort, if_pos hshort]
  · rw [serialValidate_of_long hlong, if_neg (Nat.not_lt.mpr hlong)]

/-- Settles O26, by the law of `PAYLOAD.SERIAL` on each side of three bytes. -/
theorem payloadSerialResult : Obligations.PayloadSerialResult := by
  intro w s
  rw [exec_payloadSerial]
  rcases Nat.lt_or_ge w.length 3 with hshort | hlong
  · rw [serialPayload_of_short hshort, if_pos hshort]
  · rw [serialPayload_of_long hlong, if_neg (Nat.not_lt.mpr hlong)]

/-! ## W1 to W6 -/

/-- Settles O28: each of W2 to W6 is one of the obligations through the bound, and a length above 256, which the bound turns
into `BadLength`, meets W2's lower bound by its size. -/
theorem serialConformanceExactly : Obligations.SerialConformanceExactly := by
  intro serialLength serialCheck cap hcap
  constructor
  · intro hconf
    refine ⟨fun w a h => ?_, fun w a x h hle => ?_, fun w a m h hle ham hm => ?_, fun w hw h => ?_, ?_⟩
    · by_cases hle : a ≤ 256
      · exact (hconf.bounded w a (serialContract_length_eq_ok_iff.mpr ⟨h, hle⟩)).1
      · omega
    · exact (serialContract_length_eq_ok_iff.mp
        (hconf.stable w a x (serialContract_length_eq_ok_iff.mpr ⟨h, hle⟩))).1
    · exact (serialContract_length_eq_ok_iff.mp
        (hconf.causal w a m (serialContract_length_eq_ok_iff.mpr ⟨h, hle⟩) ham hm)).1
    · exact hconf.decided w hw (serialContract_undecided_iff.mpr h)
    · exact serialContract_undecided_iff.mp hconf.undecidedEmpty
  · rintro ⟨lower, stable, causal, decided, undecidedEmpty⟩
    exact {
      fits := ⟨show 1 ≤ 256 by decide, hcap⟩
      bounded := fun w a hop => by
        obtain ⟨h, hle⟩ := serialContract_length_eq_ok_iff.mp hop
        exact ⟨lower w a h, hle⟩
      stable := fun w a x hop => by
        obtain ⟨h, hle⟩ := serialContract_length_eq_ok_iff.mp hop
        exact serialContract_length_eq_ok_iff.mpr ⟨stable w a x h hle, hle⟩
      causal := fun w a m hop ham hm => by
        obtain ⟨h, hle⟩ := serialContract_length_eq_ok_iff.mp hop
        exact serialContract_length_eq_ok_iff.mpr ⟨causal w a m h hle ham hm, hle⟩
      decided := fun w hw hop => decided w hw (serialContract_undecided_iff.mp hop)
      undecidedEmpty := serialContract_undecided_iff.mpr undecidedEmpty }

theorem serialContract_conforming {serialLength : List Byte → SerialLength} {serialCheck : List Byte → Bool} {cap : Nat}
    (hcap : 256 ≤ cap) (h : SerialLengthObligations serialLength) :
    (serialContract serialLength serialCheck).Conforming cap :=
  (serialConformanceExactly serialLength serialCheck cap hcap).mpr
    ⟨h.lower, h.stable, fun w a m hl _ => h.causal w a m hl, h.decided, h.undecidedEmpty⟩

/-- Settles O27: R126's obligations are those of O28 with W4 asked of every length, and an ADU of three bytes or more is long
enough for `HEADER` and `PAYLOAD`. -/
theorem serialContractConforms : Obligations.SerialContractConforms := by
  refine fun serialLength serialCheck => ⟨fun cap hcap => serialContract_conforming hcap,
    fun hmeaningful w a hop haw => ?_⟩
  have hthree : 3 ≤ a := hmeaningful w a (serialContract_length_eq_ok_iff.mp hop).1
  have hlen : (w.take a).length = a := List.length_take_of_le haw
  have hpayload := serialPayload_of_long (serialCheck := serialCheck) (hthree.trans hlen.ge)
  rw [hlen] at hpayload
  exact ⟨serialHeader_take (Nat.le_of_add_left_le hthree) haw, hpayload⟩

end Sys2Proof.Machine
end

section
/-! SUPPORT. What each answer of PROCESS leaves (43_framer.md R137 to R142): the fields a caller sees, once for retaining, once
for discarding and once for delivering a Packet, and the statements about the steps S2 to S6. -/

namespace Sys2Proof.Machine

/-! ## The gathered window -/

theorem State.room_le_length (s : State) (chunk : List Byte) : s.room chunk ≤ chunk.length := Nat.min_le_right _ _

theorem State.take_gathered {s : State} {chunk : List Byte} {a : Nat} (h : a ≤ s.cap) :
    (s.gathered chunk).take a = (s.kept ++ chunk).take a := by
  rw [State.gathered, List.take_take, Nat.min_eq_left h]

/-- A chunk that step S2 takes whole is gathered whole. -/
theorem State.gathered_of_room {s : State} {chunk : List Byte} (hb : s.before ≤ s.cap)
    (h : s.room chunk = chunk.length) : s.gathered chunk = s.kept ++ chunk := by
  have := s.before_add_room_le chunk hb
  exact List.take_of_length_le (by rw [List.length_append, State.length_kept]; omega)

/-- Gathered bytes that cover what was kept leave the rest of the chunk over. -/
theorem State.kept_append_eq {s : State} {chunk : List Byte} {a : Nat} (hge : s.before ≤ a) (hcap : a ≤ s.cap) :
    s.kept ++ chunk = (s.gathered chunk).take a ++ leftover chunk (a - s.before) := by
  have hdrop : (s.kept ++ chunk).drop a = leftover chunk (a - s.before) := by
    rw [List.drop_append, List.drop_of_length_le (by rwa [State.length_kept]), State.length_kept, List.nil_append,
      leftover]
  rw [State.take_gathered hcap, ← hdrop, List.take_append_drop]

theorem exec_process_of_stream {s : State} (hv : s.variant = .stream) (chunk : List Byte) :
    exec (.process chunk) s = processWith streamContract chunk s := by
  rw [exec_process, hv, contractOf]

/-! ## The three ways in which PROCESS answers -/

/-- S3 and S4: `NotEnoughData`, and the bytes stay as step S2 left them. -/
structure Retains (chunk : List Byte) (s t : State) : Prop where
  out : t.out = .process (.err .notEnoughData (s.room chunk))
  used : t.used = s.before + s.room chunk
  window : t.window = s.gathered chunk
  complete : t.complete = false
  packet : t.packet = none

/-- S3 and S6: the error is passed on, and the framer is EMPTY. -/
structure Discards (e : Err) (consumed : Nat) (t : State) : Prop where
  out : t.out = .process (.err e consumed)
  empty : t.IsEmpty
  packet : t.packet = none

/-- S5 and S6: the ADU of `a` bytes is held, and its Packet returned. -/
structure Delivers (chunk : List Byte) (s : State) (a : Nat) (p : Packet) (t : State) : Prop where
  out : t.out = .process (.ok p (a - s.before) (a - s.before))
  used : t.used = a
  window : t.window = (s.gathered chunk).take a
  complete : t.complete = true
  packet : t.packet = some p

theorem State.IsEmpty.window {s : State} (h : s.IsEmpty) : s.window = [] :=
  List.length_eq_zero_iff.mp (by rw [State.length_window, h.2])

theorem retains_appended {chunk : List Byte} {s : State} {m : Memory} (hm : Appends s chunk m) :
    Retains chunk s ((s.appended chunk m).returns (.process (.err .notEnoughData (s.room chunk)))) :=
  ⟨rfl, rfl, hm.window_appended, rfl, rfl⟩

theorem discards_appended (chunk : List Byte) (s : State) (m : Memory) (e : Err) (k : Nat) :
    Discards e k ((s.appended chunk m).empty.returns (.process (.err e k))) :=
  ⟨rfl, ⟨rfl, rfl⟩, rfl⟩

theorem delivers_appended {chunk : List Byte} {s : State} {m : Memory} {a : Nat} (hm : Appends s chunk m)
    (ha : a ≤ s.before + s.room chunk) (p : Packet) :
    Delivers chunk s a p
      ((s.appended chunk m).delivered a p (.process (.ok p (a - s.before) (a - s.before)))) :=
  ⟨rfl, rfl, hm.window_claim ha, rfl, rfl⟩

section
variable {c : Contract} {chunk : List Byte} {s : State}

theorem Claims.le_gathered {a : Nat} (h : Claims c chunk s a) : a ≤ s.before + s.room chunk := h.2.1

theorem Claims.before_le {a : Nat} (h : Claims c chunk s a) : s.before ≤ a := h.2.2

theorem process_retains (hb : s.before ≤ s.cap) (h : Undecided c chunk s) :
    ∃ t, processWith c chunk s = .next t ∧ Retains chunk s t := by
  obtain ⟨m, hm, heq⟩ := processWith_of_undecided hb h
  exact ⟨_, heq, retains_appended hm⟩

theorem process_discards_of_length_error {e : Err} (hb : s.before ≤ s.cap)
    (h : c.length (s.gathered chunk) = .err e) (he : e ≠ .notEnoughData) :
    ∃ t, processWith c chunk s = .next t ∧ Discards e (s.room chunk) t := by
  obtain ⟨m, -, heq⟩ := processWith_of_length_error hb h he
  exact ⟨_, heq, discards_appended ..⟩

theorem process_discards_of_build_error {a : Nat} {e : Err} (hb : s.before ≤ s.cap) (h : Claims c chunk s a)
    (hf : BuildFails c ((s.gathered chunk).take a) e) :
    ∃ t, processWith c chunk s = .next t ∧ Discards e (a - s.before) t := by
  obtain ⟨m, -, heq⟩ := processWith_of_build_error hb h hf
  exact ⟨_, heq, discards_appended ..⟩

theorem process_delivers {a : Nat} {p : Packet} (hb : s.before ≤ s.cap) (h : Claims c chunk s a)
    (hh : c.header ((s.gathered chunk).take a) = .ok p.header)
    (hp : c.payload ((s.gathered chunk).take a) = .ok (p.off, p.plen)) :
    ∃ t, processWith c chunk s = .next t ∧ Delivers chunk s a p t := by
  obtain ⟨m, hm, heq⟩ := processWith_of_packet hb h hh hp
  exact ⟨_, heq, delivers_appended hm h.le_gathered p⟩

/-- What PROCESS leaves, by the step that decided it. -/
inductive ProcessLeaves (c : Contract) (chunk : List Byte) (s t : State) : Prop
  | retains : Undecided c chunk s → Retains chunk s t → ProcessLeaves c chunk s t
  | refuses (e : Err) : e ≠ .notEnoughData → c.length (s.gathered chunk) = .err e → Discards e (s.room chunk) t →
      ProcessLeaves c chunk s t
  | unbuilt (a : Nat) (e : Err) : Claims c chunk s a → BuildFails c ((s.gathered chunk).take a) e →
      Discards e (a - s.before) t → ProcessLeaves c chunk s t
  | delivers (a : Nat) (p : Packet) : Claims c chunk s a → c.header ((s.gathered chunk).take a) = .ok p.header →
      c.payload ((s.gathered chunk).take a) = .ok (p.off, p.plen) → Delivers chunk s a p t →
      ProcessLeaves c chunk s t

theorem processWith_leaves {t : State} (h : processWith c chunk s = .next t) : ProcessLeaves c chunk s t := by
  obtain ⟨-, m, hm, ⟨hu, rfl⟩ | ⟨e, he, hl, rfl⟩ | ⟨a, e, hc, hf, rfl⟩ | ⟨a, hd, off, plen, hc, hh, hp, rfl⟩⟩ :=
    processWith_next h
  · exact .retains hu (retains_appended hm)
  · exact .refuses e he hl (discards_appended ..)
  · exact .unbuilt a e hc hf (discards_appended ..)
  · exact .delivers a ⟨hd, off, plen⟩ hc hh hp (delivers_appended hm hc.le_gathered _)

theorem Retains.of_next {t : State} (h : processWith c chunk s = .next t) (hu : Undecided c chunk s) :
    Retains chunk s t := by
  obtain ⟨hb, -⟩ := processWith_next h
  obtain ⟨u, heq, hret⟩ := process_retains hb hu
  cases heq.symm.trans h
  exact hret

end

/-! ## Step S2 -/

section
variable {chunk : List Byte} {s : State} {m : Memory}

/-- Step S2 stores the chunk's byte `i` at `before + i`. -/
theorem Appends.read_chunk (hm : Appends s chunk m) {i : Nat} (hi : i < s.room chunk) :
    chunk[i]? = some (Memory.read m (s.before + i)) := by
  have hlt : i < chunk.length := hi.trans_le (s.room_le_length chunk)
  rw [Memory.read, hm.get, if_pos ⟨Nat.le_add_right _ _, Nat.add_lt_add_left hi _⟩, Nat.add_sub_cancel_left,
    List.getElem?_eq_getElem hlt, Option.getD_some]

/-- Step S2 leaves every byte below `before`. -/
theorem Appends.read_kept (hm : Appends s chunk m) {a : Nat} (ha : a < s.before) :
    Memory.read m a = s.bufByte a := by
  rw [State.bufByte_of_lt (ha.trans_le s.before_le_used)]
  exact Memory.read_eq_of_get_eq (by
    rw [hm.get, if_neg fun h => Nat.not_le.mpr ha h.1, State.get_keptBuf s ha])

/-- What PROCESS leaves buffered is what step S2 wrote, and it raises the count and writes neither straps nor script. -/
theorem processWith_frame {c : Contract} {t : State} (h : processWith c chunk s = .next t) :
    s.before ≤ s.cap ∧ (∃ m, Appends s chunk m ∧ ∀ a, a < t.used → t.bufByte a = Memory.read m a) ∧
    t.used ≤ s.before + s.room chunk ∧ t.epoch = s.epoch + 1 ∧ t.script = s.script := by
  obtain ⟨hb, m, hm, ⟨-, rfl⟩ | ⟨e, -, -, rfl⟩ | ⟨a, e, -, -, rfl⟩ | ⟨a, hd, off, plen, ⟨-, hle, -⟩, -, -, rfl⟩⟩ :=
    processWith_next h
  · exact ⟨hb, ⟨m, hm, fun a ha => State.bufByte_of_lt ha⟩, le_rfl, rfl, rfl⟩
  · exact ⟨hb, ⟨m, hm, fun a ha => absurd ha (Nat.not_lt_zero a)⟩, Nat.zero_le _, rfl, rfl⟩
  · exact ⟨hb, ⟨m, hm, fun a ha => absurd ha (Nat.not_lt_zero a)⟩, Nat.zero_le _, rfl, rfl⟩
  · refine ⟨hb, ⟨m, hm, fun b hlt => ?_⟩, hle, rfl, rfl⟩
    have hlt : b < a := hlt
    rw [State.bufByte_of_lt hlt]
    exact Memory.read_eq_of_get_eq (by
      show Memory.get (Memory.below a m) b = _
      rw [Memory.get_below, if_pos hlt])

end

/-- Settles O32: step S2 writes the chunk's bytes above those it keeps, and no later step changes a byte that stays. -/
theorem processStoresTheChunkAndNothingElse : Obligations.ProcessStoresTheChunkAndNothingElse := by
  intro chunk s t h
  rw [exec_process] at h
  obtain ⟨hb, ⟨m, hm, hread⟩, hused, hepoch, hscript⟩ := processWith_frame h
  obtain ⟨hvariant, hcap⟩ := processWith_straps h
  obtain ⟨m2, happ, hm2⟩ := append_spec s chunk hb
  refine ⟨⟨_, happ, rfl, fun i hi => ?_, fun a ha => ?_⟩, fun i hi hlt => ?_, fun a ha hlt => ?_,
    fun a => State.bufByte_of_ge, hused, s.before_add_room_le chunk hb, hepoch, hvariant, hcap, hscript⟩
  · rw [State.bufByte_of_lt (Nat.add_lt_add_left hi s.before :)]
    exact hm2.read_chunk hi
  · rw [State.bufByte_of_lt (Nat.lt_add_right _ ha :)]
    exact hm2.read_kept ha
  · rw [hread _ hlt]
    exact hm.read_chunk hi
  · rw [hread _ hlt]
    exact hm.read_kept ha

/-! ## Steps S3 to S6 -/

/-- Settles O33: `NotEnoughData` leaves S3 undecided, and any other error of `LENGTH` discards. -/
theorem lengthFailureRetainsOrDiscards : Obligations.LengthFailureRetainsOrDiscards := by
  intro chunk s e hb hl
  rw [exec_process]
  by_cases he : e = .notEnoughData
  · subst he
    obtain ⟨t, heq, ht⟩ := process_retains hb (.inl hl)
    exact ⟨t, _, heq, ht.out, ht.complete, ht.packet, fun _ => ⟨ht.used, ht.window⟩, fun h => absurd rfl h⟩
  · obtain ⟨t, heq, ht⟩ := process_discards_of_length_error hb hl he
    exact ⟨t, _, heq, ht.out, ht.empty.1, ht.packet, fun h => absurd h he, fun _ => ht.empty.2⟩

/-- Settles O34: a length beyond what is gathered leaves S4 undecided. -/
theorem incompleteAduIsRetained : Obligations.IncompleteAduIsRetained := by
  intro chunk s a hb hl hlt
  obtain ⟨t, heq, ht⟩ := process_retains hb (.inr ⟨a, hl, hlt⟩)
  exact ⟨t, heq, ht.out, ht.used, ht.window, ht.complete, ht.packet⟩

/-- Settles O35: below `before` S5 faults; from there on the claimed ADU and the leftover are what was gathered. -/
theorem completeAduIsClaimed : Obligations.CompleteAduIsClaimed := by
  intro chunk s a hb hl hle
  refine ⟨processWith_of_short_length hb hl, fun h off plen hge hh hp => ?_⟩
  obtain ⟨t, heq, ht⟩ := process_delivers (p := ⟨h, off, plen⟩) hb ⟨hl, hle, hge⟩ hh hp
  refine ⟨t, _, heq, ht.out, ht.complete, ht.used, ht.window, ?_, fun b hab => State.bufByte_of_ge (ht.used ▸ hab)⟩
  rw [ht.window]
  exact State.kept_append_eq hge (hle.trans (s.before_add_room_le chunk hb))

/-- Settles O36: of the three answers of S6, two discard and one delivers. -/
theorem buildReturnsThePacketOrDiscards : Obligations.BuildReturnsThePacketOrDiscards := by
  refine ⟨exec_process, fun c chunk s a hb hl hle hge => ?_⟩
  have hc : Claims c chunk s a := ⟨hl, hle, hge⟩
  have hfails : ∀ e, BuildFails c ((s.gathered chunk).take a) e →
      ∃ t, processWith c chunk s = .next t ∧ t.out = .process (.err e (a - s.before)) ∧
        t.used = 0 ∧ t.complete = false ∧ t.packet = none := fun e hf => by
    obtain ⟨t, heq, ht⟩ := process_discards_of_build_error hb hc hf
    exact ⟨t, heq, ht.out, ht.empty.2, ht.empty.1, ht.packet⟩
  refine ⟨fun e hh => hfails e (.inl hh), fun h e hh hp => hfails e (.inr ⟨⟨h, hh⟩, hp⟩), fun h off plen hh hp => ?_⟩
  obtain ⟨t, heq, ht⟩ := process_delivers (p := ⟨h, off, plen⟩) hb hc hh hp
  exact ⟨t, heq, ht.packet, ht.out⟩

/-- Settles O37: each clause leaves one or two of the answers of PROCESS, and each of those states its `consumed`. -/
theorem consumedOnEveryResult : Obligations.ConsumedOnEveryResult := by
  intro chunk s t h
  rw [exec_process] at h
  obtain ⟨hb, -⟩ := processWith_next h
  refine ⟨fun p ri consumed hout => ?_, fun e hl => ?_, fun a hl hlt => ?_, fun a e consumed hl hle hout => ?_⟩
  · cases processWith_leaves h with
    | retains _ ht => cases ht.out.symm.trans hout
    | refuses e _ _ ht => cases ht.out.symm.trans hout
    | unbuilt a e _ _ ht => cases ht.out.symm.trans hout
    | delivers a q _ _ _ ht => cases ht.out.symm.trans hout; rfl
  · by_cases he : e = .notEnoughData
    · subst he
      exact (Retains.of_next h (.inl hl)).out
    · obtain ⟨u, heq, hu⟩ := process_discards_of_length_error hb hl he
      cases heq.symm.trans h
      exact hu.out
  · exact (Retains.of_next h (.inr ⟨a, hl, hlt⟩)).out
  · cases processWith_leaves h with
    | retains hu _ => exact absurd hu (not_undecided_of_whole hl hle)
    | refuses e' _ hl' _ => cases hl.symm.trans hl'
    | unbuilt a' e' hc _ ht =>
      cases hl.symm.trans hc.1
      cases ht.out.symm.trans hout
      rfl
    | delivers a' p _ _ _ ht => cases ht.out.symm.trans hout

end Sys2Proof.Machine
end

section
/-! SUPPORT. PROCESS through a conforming contract from a steady framer: what R143, R144 and R148 say of one call, and the
contract that is not conforming and sticks (U8). -/

namespace Sys2Proof.Machine

/-- Settles O39: a steady framer is in bounds, and what it buffers is below any length found later. -/
theorem steadyProcessCompletes : Obligations.SteadyProcessCompletes := fun _ _ _ hconf hs => hs.process hconf

/-- Settles O40: the ADU ends inside what was gathered, and past what was buffered before the call. -/
theorem leftoverIndexBounds : Obligations.LeftoverIndexBounds := by
  intro c chunk s t p ri consumed hconf hs h hout
  have hpos := hs.leftover_index_pos hconf h hout
  cases processWith_leaves h with
  | retains _ ht => cases ht.out.symm.trans hout
  | refuses e _ _ ht => cases ht.out.symm.trans hout
  | unbuilt a e _ _ ht => cases ht.out.symm.trans hout
  | delivers a q hc _ _ ht =>
    cases ht.out.symm.trans hout
    obtain ⟨-, hle, -⟩ := hc
    exact ⟨rfl, hpos, by omega, s.room_le_length chunk⟩

/-- A retaining PROCESS through a conforming contract has the whole chunk buffered. -/
theorem gathered_of_undecided {c : Contract} {chunk : List Byte} {s : State} (hconf : c.Conforming s.cap)
    (hb : s.before ≤ s.cap) (hu : Undecided c chunk s) : s.gathered chunk = s.kept ++ chunk :=
  State.gathered_of_room hb (room_of_undecided hconf hb hu)

/-- R144, with the fields that the call leaves. -/
theorem process_retains_all {c : Contract} {chunk : List Byte} {s : State} (hconf : c.Conforming s.cap)
    (hb : s.before ≤ s.cap) (hu : Undecided c chunk s) :
    ∃ t, processWith c chunk s = .next t ∧ Retains chunk s t ∧
      t.out = .process (.err .notEnoughData chunk.length) ∧ t.window = s.kept ++ chunk := by
  obtain ⟨t, heq, ht⟩ := process_retains hb hu
  exact ⟨t, heq, ht, room_of_undecided hconf hb hu ▸ ht.out, gathered_of_undecided hconf hb hu ▸ ht.window⟩

/-- Settles O41: an undecided buffer is not full, so the chunk fits. -/
theorem notEnoughDataBuffersTheWholeChunk : Obligations.NotEnoughDataBuffersTheWholeChunk := by
  intro c chunk s hconf hb hu
  obtain ⟨t, heq, -, hout, hwindow⟩ := process_retains_all hconf hb hu
  exact ⟨t, heq, hout, hwindow⟩

/-! ## Nothing to append -/

/-- With no room for any byte of the chunk, what was kept is all that is gathered. -/
theorem State.gathered_of_no_room {s : State} {chunk : List Byte} (hb : s.before ≤ s.cap) (h : s.room chunk = 0) :
    s.gathered chunk = s.kept := by
  rw [← s.gathered_prefix_kept chunk hb, List.take_of_length_le (by rw [s.length_gathered chunk hb, h, Nat.add_zero])]

theorem State.room_nil (s : State) : s.room [] = 0 := Nat.min_zero _

/-- A steady framer has no whole ADU: the empty chunk leaves S3 or S4 undecided. -/
theorem State.Steady.undecided_nil {c : Contract} {s : State} (hconf : c.Conforming s.cap) (hs : s.Steady c) :
    Undecided c [] s := by
  rw [Undecided, s.gathered_of_no_room hs.before_le_cap s.room_nil, s.room_nil, Nat.add_zero]
  cases hc : s.complete with
  | true =>
    rw [State.kept_of_complete hc]
    exact .inl hconf.undecidedEmpty
  | false =>
    rw [State.kept_of_not_complete hc, State.before_of_not_complete hc]
    exact hs.unfinished hc

/-- Settles O44: nothing is appended to what step S1 kept, and that is no whole ADU. -/
theorem emptyChunk : Obligations.EmptyChunk := by
  intro c s hconf hs
  have hb := hs.before_le_cap
  obtain ⟨t, heq, ht⟩ := process_retains hb (hs.undecided_nil hconf)
  exact ⟨t, heq, s.room_nil ▸ ht.out, ht.packet, ht.complete, by rw [ht.used, s.room_nil, Nat.add_zero],
    ht.window.trans (s.gathered_of_no_room hb s.room_nil)⟩

/-- Settles O48: a full buffer has no room, so the same window is asked about again. -/
theorem stuckFullBuffer : Obligations.StuckFullBuffer := by
  intro c chunk s hcomplete hfull hmore
  have hbefore : s.before = s.cap := (State.before_of_not_complete hcomplete).trans hfull
  have hroom : s.room chunk = 0 := by rw [State.room, hbefore, Nat.sub_self, Nat.zero_min]
  have hgathered : s.gathered chunk = s.window :=
    (s.gathered_of_no_room hbefore.le hroom).trans (State.kept_of_not_complete hcomplete)
  have hu : Undecided c chunk s := by rwa [Undecided, hgathered, hroom, hbefore]
  obtain ⟨t, heq, ht⟩ := process_retains hbefore.le hu
  exact ⟨t, heq, hroom ▸ ht.out, by rw [ht.used, hroom, hbefore, Nat.add_zero], ht.complete,
    ht.window.trans hgathered⟩

end Sys2Proof.Machine
end

section
/-! SUPPORT. Two PROCESS that gather the same window, one with more of its bytes from the chunk, answer alike but for that
number in `ri` and `consumed`. HOLDING against EMPTY (R151), recovery (R146) and chunking (R152) are such pairs. -/

namespace Sys2Proof.Machine

/-- Two PROCESS that gather the same window, the second with `n` more of its bytes from the chunk. -/
structure GathersAlike (n : Nat) (chunk1 : List Byte) (s1 : State) (chunk2 : List Byte) (s2 : State) : Prop where
  inBounds : s2.before ≤ s2.cap
  gathered : s1.gathered chunk1 = s2.gathered chunk2
  before : s1.before = s2.before + n
  room : s2.room chunk2 = s1.room chunk1 + n

/-- Two answers of PROCESS that differ in `ri` and `consumed` alone, the second's greater by `n`. -/
structure AnswersAlike (n : Nat) (t1 t2 : State) : Prop where
  out : ∃ r, t1.out = .process r ∧ t2.out = .process (r.later n)
  used : t2.used = t1.used
  complete : t2.complete = t1.complete
  window : t2.window = t1.window
  packet : t2.packet = t1.packet

section
variable {n : Nat} {c : Contract} {chunk1 chunk2 : List Byte} {s1 s2 : State}

theorem GathersAlike.end_eq (h : GathersAlike n chunk1 s1 chunk2 s2) :
    s2.before + s2.room chunk2 = s1.before + s1.room chunk1 := by
  rw [h.before, h.room, Nat.add_comm _ n, Nat.add_assoc]

theorem GathersAlike.undecided (h : GathersAlike n chunk1 s1 chunk2 s2) (hu : Undecided c chunk1 s1) :
    Undecided c chunk2 s2 := by
  rwa [Undecided, ← h.gathered, h.end_eq]

theorem GathersAlike.claims (h : GathersAlike n chunk1 s1 chunk2 s2) {a : Nat} (hc : Claims c chunk1 s1 a) :
    Claims c chunk2 s2 a := by
  obtain ⟨hl, hle, hge⟩ := hc
  exact ⟨h.gathered ▸ hl, h.end_eq.symm ▸ hle, (Nat.le_add_right _ n).trans (h.before ▸ hge)⟩

/-- The bytes taken up to `a` are `n` more. -/
theorem GathersAlike.sub_before (h : GathersAlike n chunk1 s1 chunk2 s2) {a : Nat} (hge : s1.before ≤ a) :
    a - s2.before = a - s1.before + n := by
  have := h.before
  omega

theorem Discards.alike {e : Err} {k1 k2 : Nat} {t1 t2 : State} (h1 : Discards e k1 t1) (h2 : Discards e k2 t2)
    (hk : k2 = k1 + n) : AnswersAlike n t1 t2 where
  out := ⟨_, h1.out, by rw [h2.out, hk, ProcessResult.later]⟩
  used := h2.empty.2.trans h1.empty.2.symm
  complete := h2.empty.1.trans h1.empty.1.symm
  window := h2.empty.window.trans h1.empty.window.symm
  packet := h2.packet.trans h1.packet.symm

/-- Each answer of the first call is the answer of the second, by the same step. -/
theorem GathersAlike.process {t1 : State} (h : GathersAlike n chunk1 s1 chunk2 s2)
    (h1 : processWith c chunk1 s1 = .next t1) : ∃ t2, processWith c chunk2 s2 = .next t2 ∧ AnswersAlike n t1 t2 := by
  cases processWith_leaves h1 with
  | retains hu ht1 =>
    obtain ⟨t2, heq, ht2⟩ := process_retains h.inBounds (h.undecided hu)
    exact ⟨t2, heq, {
      out := ⟨_, ht1.out, by rw [ht2.out, h.room, ProcessResult.later]⟩
      used := ht2.used.trans (h.end_eq.trans ht1.used.symm)
      complete := ht2.complete.trans ht1.complete.symm
      window := ht2.window.trans (h.gathered.symm.trans ht1.window.symm)
      packet := ht2.packet.trans ht1.packet.symm }⟩
  | refuses e he hl ht1 =>
    obtain ⟨t2, heq, ht2⟩ := process_discards_of_length_error h.inBounds (h.gathered ▸ hl) he
    exact ⟨t2, heq, ht1.alike ht2 h.room⟩
  | unbuilt a e hc hf ht1 =>
    obtain ⟨t2, heq, ht2⟩ := process_discards_of_build_error h.inBounds (h.claims hc) (h.gathered ▸ hf)
    exact ⟨t2, heq, ht1.alike ht2 (h.sub_before hc.before_le)⟩
  | delivers a p hc hh hp ht1 =>
    obtain ⟨t2, heq, ht2⟩ := process_delivers h.inBounds (h.claims hc) (h.gathered ▸ hh) (h.gathered ▸ hp)
    exact ⟨t2, heq, {
      out := ⟨_, ht1.out, by rw [ht2.out, h.sub_before hc.before_le, ProcessResult.later]⟩
      used := ht2.used.trans ht1.used.symm
      complete := ht2.complete.trans ht1.complete.symm
      window := ht2.window.trans ((congrArg (List.take a) h.gathered.symm).trans ht1.window.symm)
      packet := ht2.packet.trans ht1.packet.symm }⟩

theorem ProcessResult.later_zero (r : ProcessResult) : r.later 0 = r := by cases r <;> rfl

theorem AnswersAlike.out_eq {t1 t2 : State} (h : AnswersAlike 0 t1 t2) : t1.out = t2.out := by
  obtain ⟨r, h1, h2⟩ := h.out
  rw [h1, h2, r.later_zero]

end

/-! ## HOLDING and EMPTY -/

/-- Step S1 leaves nothing of the framer: EMPTY, or a message held that is superseded. -/
structure State.StartsEmpty (s : State) : Prop where
  before : s.before = 0
  kept : s.kept = []

theorem State.StartsEmpty.of_complete {s : State} (h : s.complete = true) : s.StartsEmpty :=
  ⟨s.before_of_complete h, s.kept_of_complete h⟩

theorem State.IsEmpty.startsEmpty {s : State} (h : s.IsEmpty) : s.StartsEmpty :=
  ⟨(s.before_of_not_complete h.1).trans h.2, (s.kept_of_not_complete h.1).trans h.window⟩

theorem State.StartsEmpty.before_le {s : State} (h : s.StartsEmpty) (a : Nat) : s.before ≤ a := h.before ▸ Nat.zero_le a

theorem State.StartsEmpty.gathersAlike {s1 s2 : State} (h1 : s1.StartsEmpty) (h2 : s2.StartsEmpty)
    (hcap : s1.cap = s2.cap) (chunk : List Byte) : GathersAlike 0 chunk s1 chunk s2 where
  inBounds := h2.before_le _
  gathered := by rw [State.gathered, State.gathered, h1.kept, h2.kept, hcap]
  before := h1.before.trans h2.before.symm
  room := by rw [State.room, State.room, h1.before, h2.before, hcap, Nat.add_zero]

/-- No length is below the 0 bytes buffered before the call, so PROCESS answers through any contract. -/
theorem State.StartsEmpty.process {s : State} (h : s.StartsEmpty) (c : Contract) (chunk : List Byte) :
    ∃ t, processWith c chunk s = .next t := by
  have ha := processWith_answers c chunk s
  generalize processWith c chunk s = r at ha
  cases ha with
  | outOfRange hb => exact absurd (h.before_le _) (Nat.not_le.mpr hb)
  | shortLength a _ _ hlt => exact absurd (h.before_le a) (Nat.not_le.mpr hlt)
  | retained => exact ⟨_, rfl⟩
  | discarded => exact ⟨_, rfl⟩
  | unbuilt => exact ⟨_, rfl⟩
  | packet => exact ⟨_, rfl⟩

theorem State.StartsEmpty.answersAlike {s1 s2 : State} (h1 : s1.StartsEmpty) (h2 : s2.StartsEmpty)
    (hcap : s1.cap = s2.cap) (c : Contract) (chunk : List Byte) :
    ∃ t1 t2, processWith c chunk s1 = .next t1 ∧ processWith c chunk s2 = .next t2 ∧
      t1.out = t2.out ∧ t1.used = t2.used ∧ t1.complete = t2.complete ∧ t1.window = t2.window ∧
      t1.packet = t2.packet := by
  obtain ⟨t1, heq1⟩ := h1.process c chunk
  obtain ⟨t2, heq2, ht⟩ := (h1.gathersAlike h2 hcap chunk).process heq1
  exact ⟨t1, t2, heq1, heq2, ht.out_eq, ht.used.symm, ht.complete.symm, ht.window.symm, ht.packet.symm⟩

/-- Settles O43: step S1 clears a held message, so both framers gather the chunk alone. -/
theorem holdingActsAsEmpty : Obligations.HoldingActsAsEmpty :=
  fun c chunk _ _ h1 h2 hcap => (State.StartsEmpty.of_complete h1).answersAlike h2.startsEmpty hcap c chunk

theorem discards_of_destructive {c : Contract} {chunk : List Byte} {s t : State} {e : Err} {k : Nat}
    (h : processWith c chunk s = .next t) (hout : t.out = .process (.err e k)) (hd : e.destructive = true) :
    Discards e k t := by
  cases processWith_leaves h with
  | retains _ ht =>
    cases ht.out.symm.trans hout
    cases hd
  | refuses e' _ _ ht => cases ht.out.symm.trans hout; exact ht
  | unbuilt a e' _ _ ht => cases ht.out.symm.trans hout; exact ht
  | delivers a p _ _ _ ht => cases ht.out.symm.trans hout

/-- Settles O49: a destructive error discards, and an EMPTY framer starts as any other. -/
theorem recoveryAfterDestructiveError : Obligations.RecoveryAfterDestructiveError := by
  intro c chunk next s t s0 e k h hout hd hs0 hcap
  have ht := discards_of_destructive h hout hd
  obtain ⟨-, htcap⟩ := processWith_straps h
  exact ⟨ht.empty, ht.packet, ht.empty.startsEmpty.answersAlike hs0.startsEmpty (htcap.trans hcap.symm) c next⟩

/-! ## Chunking -/

/-- After a PROCESS that retained all of `c1`, the next gathers what one PROCESS of both chunks does. -/
theorem Retains.gathersAlike {c1 : List Byte} {s s1 : State} (hret : Retains c1 s s1) (hcap : s1.cap = s.cap)
    (hb : s.before ≤ s.cap) (hroom : s.room c1 = c1.length) (c2 : List Byte) :
    GathersAlike c1.length c2 s1 (c1 ++ c2) s := by
  have hbefore : s1.before = s.before + c1.length := by
    rw [State.before_of_not_complete hret.complete, hret.used, hroom]
  refine ⟨hb, ?_, hbefore, ?_⟩
  · rw [State.gathered, State.kept_of_not_complete hret.complete, hret.window, State.gathered_of_room hb hroom, hcap,
      State.gathered, List.append_assoc]
  · have hfits := s.before_add_room_le c1 hb
    rw [State.room, State.room, hbefore, hcap, List.length_append]
    omega

/-- Settles O45: the first call buffers its whole chunk and leaves a steady framer, so the second answers. -/
theorem chunkingDoesNotMatter : Obligations.ChunkingDoesNotMatter := by
  intro c c1 c2 s s1 hconf hs _ hu h1
  have hb := hs.before_le_cap
  obtain ⟨-, hcap⟩ := processWith_straps h1
  obtain ⟨s1', heq1, hsteady⟩ := hs.process (chunk := c1) hconf
  cases heq1.symm.trans h1
  obtain ⟨t, heq, -⟩ := hsteady.process (chunk := c2) (hcap ▸ hconf)
  have hroom := room_of_undecided hconf hb hu
  obtain ⟨t', heq', ht⟩ := ((Retains.of_next h1 hu).gathersAlike hcap hb hroom c2).process heq
  obtain ⟨r, hout, hout'⟩ := ht.out
  exact ⟨t, t', r, heq, heq', hout, hout', ht.used, ht.complete, ht.window, ht.packet⟩

end Sys2Proof.Machine
end

section
/-! SUPPORT. DRAIN of whole ADUs (R153): each PROCESS finds the first ADU at the front of the bytes (W3), holds it, and so
starts the next from nothing. -/

namespace Sys2Proof.Machine

theorem Contract.Accepts.length_pos {c : Contract} {cap : Nat} {x : List Byte} (hconf : c.Conforming cap)
    (hx : c.Accepts x) : 1 ≤ x.length := (hconf.bounded x _ hx.1).1

theorem Contract.Accepts.length_le {c : Contract} {cap : Nat} {x : List Byte} (hconf : c.Conforming cap)
    (hx : c.Accepts x) : x.length ≤ cap := (hconf.bounded x _ hx.1).2.trans hconf.fits.2

/-- The result record of a Packet made of the whole ADU. -/
theorem Contract.resultFor_of_ok {c : Contract} {x : List Byte} {p : Packet} (hh : c.header x = .ok p.header)
    (hp : c.payload x = .ok (p.off, p.plen)) : c.resultFor x = some (.ok p x.length x.length) := by
  rw [Contract.resultFor, hh, hp]

/-- The ADU at the front of the bytes is measured and claimed, whatever follows it. -/
theorem Contract.Accepts.claims {c : Contract} {x : List Byte} {s : State} (hconf : c.Conforming s.cap)
    (hs : s.StartsEmpty) (hx : c.Accepts x) (rest : List Byte) :
    (s.gathered (x ++ rest)).take x.length = x ∧ Claims c (x ++ rest) s x.length := by
  have hcap := hx.length_le hconf
  have hgathered : s.gathered (x ++ rest) = x ++ rest.take (s.cap - x.length) := by
    rw [State.gathered, hs.kept, List.nil_append, List.take_append, List.take_of_length_le hcap]
  have hroom : x.length ≤ s.room (x ++ rest) := by
    rw [State.room, hs.before, List.length_append]
    omega
  rw [Claims, hgathered]
  exact ⟨List.take_left, hconf.stable x _ _ hx.1, hroom.trans (Nat.le_add_left _ _), hs.before_le _⟩

/-- PROCESS from nothing takes the first ADU off the bytes. -/
theorem Contract.Accepts.process {c : Contract} {x : List Byte} {s : State} (hconf : c.Conforming s.cap)
    (hs : s.StartsEmpty) (hx : c.Accepts x) (rest : List Byte) :
    ∃ t p, processWith c (x ++ rest) s = .next t ∧ t.out = .process (.ok p x.length x.length) ∧
      t.processResult = c.resultFor x ∧ t.window = x ∧ t.complete = true := by
  obtain ⟨hwindow, hclaims⟩ := hx.claims hconf hs rest
  obtain ⟨-, ⟨h, hh⟩, ⟨off, plen⟩, hp⟩ := hx
  obtain ⟨t, heq, ht⟩ := process_delivers (p := ⟨h, off, plen⟩) (hs.before_le _) hclaims (hwindow.symm ▸ hh)
    (hwindow.symm ▸ hp)
  have hout := ht.out
  rw [hs.before, Nat.sub_zero] at hout
  refine ⟨t, _, heq, hout, ?_, ht.window.trans hwindow, ht.complete⟩
  rw [Contract.resultFor_of_ok (p := ⟨h, off, plen⟩) hh hp, State.processResult, hout]

/-- By induction on the ADUs: each PROCESS takes one off and leaves the others. -/
theorem drainLoop_of_adus {c : Contract} (adus : List (List Byte)) {fuel : Nat} {s : State}
    (hconf : c.Conforming s.cap) (hs : s.StartsEmpty) (hne : adus ≠ []) (hadus : ∀ x ∈ adus, c.Accepts x)
    (hfuel : adus.flatten.length < fuel) :
    ∃ ts, drainLoop c fuel adus.flatten s = .next ts ∧ ts.map State.processResult = adus.map c.resultFor ∧
      ts.map State.window = adus ∧ ∀ t ∈ ts, t.complete = true := by
  induction adus generalizing fuel s with
  | nil => exact absurd rfl hne
  | cons x adus ih =>
    obtain ⟨hx, hadus⟩ := List.forall_mem_cons.mp hadus
    obtain ⟨fuel, rfl⟩ := Nat.exists_eq_add_one_of_ne_zero (Nat.ne_zero_of_lt hfuel)
    rw [List.flatten_cons] at hfuel ⊢
    obtain ⟨t, p, heq, hout, hresult, hwindow, hcomplete⟩ := hx.process hconf hs adus.flatten
    have hleft : leftover (x ++ adus.flatten) x.length = adus.flatten := List.drop_left
    cases adus with
    | nil =>
      refine ⟨[t], drainLoop_of_last fuel heq fun q ri k hq => ?_, by simp [hresult], by simp [hwindow],
        by simpa using hcomplete⟩
      cases hout.symm.trans hq
      exact hleft
    | cons y ys =>
      have hpos := hx.length_pos hconf
      have hypos := (hadus y List.mem_cons_self).length_pos hconf
      obtain ⟨-, hcap⟩ := processWith_straps heq
      obtain ⟨ts, hts, hresults, hwindows, hcompletes⟩ := ih (hcap ▸ hconf) (.of_complete hcomplete)
        (List.cons_ne_nil y ys) hadus (fuel := fuel) (by rw [List.length_append] at hfuel; omega)
      have hmore : leftover (x ++ (y :: ys).flatten) x.length ≠ [] := by
        rw [hleft, List.flatten_cons]
        exact List.append_ne_nil_of_left_ne_nil (List.ne_nil_of_length_pos hypos) _
      exact ⟨t :: ts, drainLoop_of_leftover heq hout hmore (hleft.symm ▸ hts),
        congrArg₂ List.cons hresult hresults, congrArg₂ List.cons hwindow hwindows,
        List.forall_mem_cons.mpr ⟨hcomplete, hcompletes⟩⟩

/-- Settles O46: the fuel of DRAIN is above the number of its bytes, and EMPTY starts from nothing. -/
theorem drainPeelsOneAduPerCall : Obligations.DrainPeelsOneAduPerCall :=
  fun _ adus _ hconf hs hne hadus => drainLoop_of_adus adus hconf hs.startsEmpty hne hadus (Nat.lt_succ_self _)

end Sys2Proof.Machine
end

section
/-! SUPPORT. PROCESS with the STREAM variant: a claimed length of 6 has no whole header and is discarded, any other gives the
Packet (R149). -/

namespace Sys2Proof.Machine

/-! ## S6 with the STREAM variant -/

/-- The header is in the first seven bytes. -/
theorem streamHeader_take {w : List Byte} {a : Nat} (ha : 7 ≤ a) (hw : 7 ≤ w.length) :
    streamHeader (w.take a) = streamHeader w := by
  obtain ⟨b0, b1, b2, b3, b4, b5, b6, rest, rfl⟩ := exists_seven hw
  obtain ⟨n, rfl⟩ := Nat.exists_eq_add_of_le' ha
  exact (streamHeader_of_bytes b0 b1 b2 b3 b4 b5 b6 (rest.take n)).trans
    (streamHeader_of_bytes b0 b1 b2 b3 b4 b5 b6 rest).symm

theorem exists_streamHeader {w : List Byte} (hw : 7 ≤ w.length) : ∃ hd, streamHeader w = .ok hd := by
  obtain ⟨b0, b1, b2, b3, b4, b5, b6, rest, rfl⟩ := exists_seven hw
  exact ⟨_, streamHeader_of_bytes b0 b1 b2 b3 b4 b5 b6 rest⟩

/-- `PAYLOAD.STREAM` of a window that is as long as its length field says. -/
theorem streamPayload_of_measured {w : List Byte} (hl : streamLength w = .ok w.length) (hw : 7 ≤ w.length) :
    streamPayload w = .ok (7, w.length - 7) := by
  obtain ⟨hi, lo, h, l⟩ := exists_length_field (Nat.le_of_succ_le hw)
  rw [streamPayload_of_bytes hw h l, if_neg]
  rw [streamLength_of_bytes h l] at hl
  split at hl
  · cases hl
  · exact Nat.not_lt.mpr (Result.ok.inj hl).le

section
variable {chunk : List Byte} {s : State} {a : Nat}

theorem Claims.six_le (h : Claims streamContract chunk s a) : 6 ≤ a := by
  obtain ⟨-, hsix, -⟩ := streamLength_ok h.1
  exact hsix

/-- The claimed window is `a` bytes long, and measured so. -/
theorem Claims.length_take {c : Contract} (hb : s.before ≤ s.cap) (h : Claims c chunk s a) :
    ((s.gathered chunk).take a).length = a :=
  List.length_take_of_le (by rw [s.length_gathered chunk hb]; exact h.le_gathered)

theorem Claims.header_of_seven (hb : s.before ≤ s.cap) (h : Claims streamContract chunk s a) (ha : 7 ≤ a) :
    ∃ hd, streamHeader (s.gathered chunk) = .ok hd ∧ streamHeader ((s.gathered chunk).take a) = .ok hd := by
  have hlong : 7 ≤ (s.gathered chunk).length := by
    rw [s.length_gathered chunk hb]
    exact ha.trans h.le_gathered
  obtain ⟨hd, hhd⟩ := exists_streamHeader hlong
  exact ⟨hd, hhd, (streamHeader_take ha hlong).trans hhd⟩

theorem Claims.payload_of_seven (hb : s.before ≤ s.cap) (h : Claims streamContract chunk s a) (ha : 7 ≤ a) :
    streamPayload ((s.gathered chunk).take a) = .ok (7, a - 7) := by
  have hlen := h.length_take hb
  have hmeasured : streamLength ((s.gathered chunk).take a) = .ok ((s.gathered chunk).take a).length := by
    rw [hlen, streamLength_take h.six_le]
    exact h.1
  rw [streamPayload_of_measured hmeasured (hlen.symm ▸ ha), hlen]

/-- A claimed length of 6 is one byte short of a header: S6 discards with `NotEnoughData` (D8). -/
theorem process_stream_of_six (hb : s.before ≤ s.cap) (h : Claims streamContract chunk s 6) :
    ∃ t, processWith streamContract chunk s = .next t ∧ Discards .notEnoughData (6 - s.before) t :=
  process_discards_of_build_error hb h
    (.inl (streamHeader_of_short (Nat.lt_of_le_of_lt (List.length_take_le _ _) (by decide))))

/-- A claimed length from 7 on gives the Packet, its payload all that follows the header. -/
theorem process_stream_of_seven (hb : s.before ≤ s.cap) (h : Claims streamContract chunk s a) (ha : 7 ≤ a) :
    ∃ t hd, processWith streamContract chunk s = .next t ∧ streamHeader (s.gathered chunk) = .ok hd ∧
      Delivers chunk s a ⟨hd, 7, a - 7⟩ t := by
  obtain ⟨hd, hgathered, htake⟩ := h.header_of_seven hb ha
  obtain ⟨t, heq, ht⟩ := process_delivers (p := ⟨hd, 7, a - 7⟩) hb h htake (h.payload_of_seven hb ha)
  exact ⟨t, hd, heq, hgathered, ht⟩

end

/-- Settles O50: the length field decides between S3's two errors, S4, and a claim of 6 or of more bytes. -/
theorem streamProcessByDeclaredLength : Obligations.StreamProcessByDeclaredLength := by
  intro chunk s hv hcap hs
  have hconf := streamContract_conforming hcap
  have hb := hs.before_le_cap
  have hlen := s.length_gathered chunk hb
  have hretains : Undecided streamContract chunk s → ∃ t, processWith streamContract chunk s = .next t ∧
      t.out = .process (.err .notEnoughData chunk.length) ∧ t.complete = false ∧ t.packet = none ∧
      t.window = s.kept ++ chunk := fun hu => by
    obtain ⟨t, heq, ht, hout, hwindow⟩ := process_retains_all hconf hb hu
    exact ⟨t, heq, hout, ht.complete, ht.packet, hwindow⟩
  rw [exec_process_of_stream hv]
  refine ⟨fun hshort => hretains (.inl (streamLength_of_short hshort)), fun hi lo l h4 h5 hl => ?_⟩
  have hsix : 6 ≤ (s.gathered chunk).length := length_gt_of_getElem? h5
  have hlength := streamLength_of_bytes h4 h5
  rw [← hl] at hlength
  have hok : l ≤ 254 → streamLength (s.gathered chunk) = .ok (l + 6) := fun hle => by
    rw [hlength, if_neg (by omega)]
  have hclaims : l ≤ 254 → l + 6 ≤ (s.gathered chunk).length → Claims streamContract chunk s (l + 6) :=
    fun hle hwhole => ⟨hok hle, hlen ▸ hwhole, (hs.before_lt_length hconf (hok hle)).le⟩
  refine ⟨fun hbig => ?_, fun hzero => ?_, fun _ hle hpart => ?_, fun hpos hle hwhole => ?_⟩
  · obtain ⟨t, heq, ht⟩ := process_discards_of_length_error (c := streamContract) (e := .badLength) hb
      (by rw [if_pos (by omega)] at hlength; exact hlength) (by decide)
    exact ⟨t, heq, ht.out, ht.empty, ht.packet⟩
  · subst hzero
    obtain ⟨t, heq, ht⟩ := process_stream_of_six hb (hclaims (by decide) hsix)
    exact ⟨t, heq, ht.out, ht.empty, ht.packet⟩
  · exact hretains (.inr ⟨_, hok hle, hlen ▸ hpart⟩)
  · obtain ⟨t, hd, heq, hhd, ht⟩ := process_stream_of_seven hb (hclaims hle hwhole) (by omega)
    exact ⟨t, hd, heq, hhd, ht.out, ht.complete, ht.used, ht.window⟩

/-! ## The declared length decides -/

/-- A failing S6 means that the declared length was 0. -/
theorem Claims.eq_six_of_build_fails {chunk : List Byte} {s : State} {a : Nat} {e : Err} (hb : s.before ≤ s.cap)
    (h : Claims streamContract chunk s a) (hf : BuildFails streamContract ((s.gathered chunk).take a) e) :
    a = 6 ∧ e = .notEnoughData := by
  have ha : a = 6 := by
    by_contra hne
    have hseven : 7 ≤ a := Nat.lt_of_le_of_ne h.six_le (Ne.symm hne)
    obtain ⟨hd, -, hhd⟩ := h.header_of_seven hb hseven
    rcases hf with hf | ⟨-, hf⟩
    · cases hhd.symm.trans hf
    · cases (h.payload_of_seven hb hseven).symm.trans hf
  subst ha
  have hshort : streamHeader ((s.gathered chunk).take 6) = .err .notEnoughData :=
    streamHeader_of_short (Nat.lt_of_le_of_lt (List.length_take_le _ _) (by decide))
  rcases hf with hf | ⟨⟨hd, hf⟩, -⟩ <;> cases hshort.symm.trans hf
  exact ⟨rfl, rfl⟩

/-- A Packet means that the declared length was not 0. -/
theorem seven_le_of_header {w : List Byte} {a : Nat} {hd : Header} (h : streamHeader (w.take a) = .ok hd) : 7 ≤ a := by
  by_contra hlt
  cases h.symm.trans (streamHeader_of_short
    (Nat.lt_of_le_of_lt (List.length_take_le _ _) (Nat.not_le.mp hlt)))

/-- Settles O51: the same length is answered, so the same step decides both calls. -/
theorem onlyTheDeclaredLengthDecides : Obligations.OnlyTheDeclaredLengthDecides := by
  intro chunk1 chunk2 s1 s2 hv1 hv2 hcap hused hcomplete hchunk h4 h5 t1 h1
  rw [exec_process_of_stream hv1] at h1
  rw [exec_process_of_stream hv2]
  obtain ⟨hb1, -⟩ := processWith_next h1
  have hbefore : s1.before = s2.before := by rw [State.before, State.before, hcomplete, hused]
  have hroom : s1.room chunk1 = s2.room chunk2 := by rw [State.room, State.room, hcap, hbefore, hchunk]
  have hlength : streamContract.length (s1.gathered chunk1) = streamContract.length (s2.gathered chunk2) :=
    streamLength_congr h4 h5
  have hb : s2.before ≤ s2.cap := hbefore ▸ hcap ▸ hb1
  have hclaims : ∀ {a}, Claims streamContract chunk1 s1 a → Claims streamContract chunk2 s2 a := by
    intro a; rw [Claims, Claims, hlength, hbefore, hroom]; exact id
  cases processWith_leaves h1 with
  | retains hu ht1 =>
    obtain ⟨t2, heq, ht2⟩ := process_retains (c := streamContract) (chunk := chunk2) (s := s2) hb
      (by rwa [Undecided, ← hlength, ← hbefore, ← hroom])
    exact ⟨t2, _, _, heq, ht1.out, ht2.out, rfl, hroom, by rw [ht1.used, ht2.used, hbefore, hroom],
      ht1.complete.trans ht2.complete.symm⟩
  | refuses e he hl ht1 =>
    obtain ⟨t2, heq, ht2⟩ := process_discards_of_length_error hb (hlength ▸ hl) he
    exact ⟨t2, _, _, heq, ht1.out, ht2.out, rfl, hroom, ht1.empty.2.trans ht2.empty.2.symm,
      ht1.empty.1.trans ht2.empty.1.symm⟩
  | unbuilt a e hc hf ht1 =>
    obtain ⟨rfl, rfl⟩ := hc.eq_six_of_build_fails hb1 hf
    obtain ⟨t2, heq, ht2⟩ := process_stream_of_six hb (hclaims hc)
    exact ⟨t2, _, _, heq, ht1.out, ht2.out, rfl, congrArg (6 - ·) hbefore, ht1.empty.2.trans ht2.empty.2.symm,
      ht1.empty.1.trans ht2.empty.1.symm⟩
  | delivers a p hc hh _ ht1 =>
    obtain ⟨t2, hd, heq, -, ht2⟩ := process_stream_of_seven hb (hclaims hc) (seven_le_of_header hh)
    exact ⟨t2, _, _, heq, ht1.out, ht2.out, rfl, congrArg (a - ·) hbefore, ht1.used.trans ht2.used.symm,
      ht1.complete.trans ht2.complete.symm⟩

end Sys2Proof.Machine
end

section
/-! SUPPORT. One STREAM ADU in pieces (R152, R70): every piece but the last leaves less than the ADU buffered, and the last one
completes it. -/

namespace Sys2Proof.Machine

theorem IsStreamAdu.length_bounds {x : List Byte} (h : IsStreamAdu x) : 7 ≤ x.length ∧ x.length ≤ 260 := by
  obtain ⟨l, -, hlo, hhi, hlen⟩ := h
  omega

theorem IsStreamAdu.measured {x : List Byte} (h : IsStreamAdu x) : streamLength x = .ok x.length := by
  obtain ⟨hseven, hbound⟩ := h.length_bounds
  obtain ⟨l, hl, -, -, hlen⟩ := h
  rw [streamLength, if_neg (by rw [lenMin]; omega), hl]
  simp only [boundedLength, lenBias, ← hlen]
  exact if_neg (Nat.not_lt.mpr hbound)

/-- The first bytes of an ADU are not measured yet, or measured as the whole of it. -/
theorem IsStreamAdu.measured_or_undecided {x : List Byte} (h : IsStreamAdu x) (k : Nat) :
    streamLength (x.take k) = .err .notEnoughData ∨ streamLength (x.take k) = .ok x.length := by
  rcases Nat.lt_or_ge k 6 with hshort | hlong
  · exact .inl (streamLength_of_short (Nat.lt_of_le_of_lt (List.length_take_le _ _) hshort))
  · exact .inr ((streamLength_take hlong x).trans h.measured)

/-- A STREAM framer in which the first `k` bytes of `x` are buffered, and no message held. -/
structure State.HasFirst (x : List Byte) (k : Nat) (s : State) : Prop where
  complete : s.complete = false
  window : s.window = x.take k
  le_length : k ≤ x.length
  variant : s.variant = .stream
  cap : 260 ≤ s.cap

theorem State.IsEmpty.hasFirst {s : State} (h : s.IsEmpty) (hv : s.variant = .stream) (hcap : 260 ≤ s.cap)
    (x : List Byte) : s.HasFirst x 0 :=
  ⟨h.1, h.window, Nat.zero_le _, hv, hcap⟩

section
variable {x chunk : List Byte} {k m : Nat} {s : State}

theorem State.HasFirst.before (h : s.HasFirst x k) : s.before = k := by
  rw [State.before_of_not_complete h.complete, ← State.length_window, h.window, List.length_take_of_le h.le_length]

/-- The next piece of the ADU fits, and the first `m` bytes are gathered. -/
theorem State.HasFirst.gathered (h : s.HasFirst x k) (hx : IsStreamAdu x) (hm : m ≤ x.length)
    (hnext : x.take k ++ chunk = x.take m) :
    s.before ≤ s.cap ∧ s.before + s.room chunk = m ∧ s.room chunk = chunk.length ∧ s.gathered chunk = x.take m := by
  obtain ⟨-, hbound⟩ := hx.length_bounds
  have hcap := h.cap
  have hbefore := h.before
  have hlen := congrArg List.length hnext
  rw [List.length_append, List.length_take_of_le h.le_length, List.length_take_of_le hm] at hlen
  have hb : s.before ≤ s.cap := by omega
  have hroom : s.room chunk = chunk.length := by rw [State.room]; omega
  refine ⟨hb, by omega, hroom, ?_⟩
  rw [State.gathered_of_room hb hroom, State.kept_of_not_complete h.complete, h.window, hnext]

/-- A piece that does not complete the ADU is buffered with what is there. -/
theorem State.HasFirst.process_part (h : s.HasFirst x k) (hx : IsStreamAdu x) (hm : m < x.length)
    (hnext : x.take k ++ chunk = x.take m) :
    ∃ t, exec (.process chunk) s = .next t ∧ t.out = .process (.err .notEnoughData chunk.length) ∧
      t.HasFirst x m ∧ t.script = s.script := by
  obtain ⟨hb, hend, hroom, hgathered⟩ := h.gathered hx hm.le hnext
  have hu : Undecided streamContract chunk s := by
    rw [Undecided, hgathered, hend]
    exact (hx.measured_or_undecided m).imp_right fun hl => ⟨x.length, hl, hm⟩
  obtain ⟨t, heq, ht⟩ := process_retains hb hu
  obtain ⟨-, -, -, -, hscript⟩ := processWith_frame heq
  obtain ⟨hvariant, hcap⟩ := processWith_straps heq
  exact ⟨t, (exec_process_of_stream h.variant chunk).trans heq, hroom ▸ ht.out,
    ⟨ht.complete, ht.window.trans hgathered, hm.le, hvariant.trans h.variant, hcap ▸ h.cap⟩, hscript⟩

/-- The piece that completes the ADU gives its Packet. -/
theorem State.HasFirst.process_last (h : s.HasFirst x k) (hx : IsStreamAdu x) (hlast : x.take k ++ chunk = x) :
    ∃ t hd, exec (.process chunk) s = .next t ∧ streamHeader x = .ok hd ∧
      t.out = .process (.ok ⟨hd, 7, x.length - 7⟩ (x.length - k) (x.length - k)) ∧ t.window = x ∧
      t.complete = true := by
  have hwhole : x.take x.length = x := List.take_length
  obtain ⟨hb, hend, -, hgathered⟩ := h.gathered hx le_rfl (hlast.trans hwhole.symm)
  rw [hwhole] at hgathered
  have hclaims : Claims streamContract chunk s x.length :=
    ⟨hgathered.symm ▸ hx.measured, hend.ge, h.before ▸ h.le_length⟩
  obtain ⟨t, hd, heq, hhd, ht⟩ := process_stream_of_seven hb hclaims hx.length_bounds.1
  refine ⟨t, hd, (exec_process_of_stream h.variant chunk).trans heq, hgathered ▸ hhd, h.before ▸ ht.out, ?_,
    ht.complete⟩
  rw [ht.window, hgathered, hwhole]

end

/-- Settles O53: the first piece is less than the ADU, and the second completes it. -/
theorem splitAnywhere : Obligations.SplitAnywhere := by
  intro x i s hx hi hv hcap hs
  obtain ⟨t1, heq1, hout1, hfirst, -⟩ :=
    (hs.hasFirst hv hcap x).process_part hx hi (List.nil_append (x.take i))
  obtain ⟨t2, hd, heq2, hhd, hout2, hwindow, -⟩ := hfirst.process_last hx (List.take_append_drop i x)
  rw [List.length_take_of_le hi.le] at hout1
  exact ⟨t1, t2, hd, heq1, hout1, heq2, hhd, hout2, hwindow⟩

/-! ## FEED1 -/

/-- A run of one step more ends with that step. -/
theorem core_run_succ_of_run {M : Host.Core} {n : Nat} {s t : M.State} (h : M.run n s = .next t) :
    M.run (n + 1) s = M.step t := by
  induction n generalizing s with
  | zero =>
    cases h
    rw [Host.Core.run]
    cases M.step t <;> rfl
  | succ n ih =>
    rw [Host.Core.run] at h ⊢
    cases hs : M.step s with
    | next u =>
      rw [hs] at h
      exact ih h
    | fault f =>
      rw [hs] at h
      cases h
    | refused r =>
      rw [hs] at h
      cases h

/-- The next request of FEED1 is PROCESS of the next byte. -/
theorem step_feed1 {x : List Byte} {k : Nat} {s : State} (hk : k < x.length) (h : s.script = feed1 (x.drop k)) :
    step s = exec (.process [x[k]]) { s with script := feed1 (x.drop (k + 1)) } := by
  rw [List.drop_eq_getElem_cons hk] at h
  exact step_of_decoded h (decode_process s.variant [x[k]])

theorem State.HasFirst.withScript {x : List Byte} {k : Nat} {s : State} (h : s.HasFirst x k) (rest : List Request) :
    { s with script := rest }.HasFirst x k :=
  ⟨h.complete, h.window, h.le_length, h.variant, h.cap⟩

/-- After `n` steps of FEED1, short of the last, `n` bytes are buffered and the others are still to be fed. -/
theorem run_feed1 {x : List Byte} {s : State} (hx : IsStreamAdu x) (hs : s.HasFirst x 0) (hscript : s.script = feed1 x)
    (n : Nat) (hn : n < x.length) :
    ∃ t, Sys2Proof.core.run n s = .next t ∧ t.HasFirst x n ∧ t.script = feed1 (x.drop n) ∧
      (0 < n → t.out = .process (.err .notEnoughData 1)) := by
  induction n with
  | zero => exact ⟨s, rfl, hs, hscript, fun h => absurd h (Nat.lt_irrefl 0)⟩
  | succ n ih =>
    have hlt : n < x.length := Nat.lt_of_succ_lt hn
    obtain ⟨t, hrun, hfirst, hrest, -⟩ := ih hlt
    obtain ⟨u, heq, hout, hu, huscript⟩ :=
      (hfirst.withScript (feed1 (x.drop (n + 1)))).process_part hx hn (List.take_append_getElem hlt)
    exact ⟨u, (core_run_succ_of_run hrun).trans ((step_feed1 hlt hrest).trans heq), hu, huscript, fun _ => hout⟩

/-- Settles O52: every byte but the last leaves less than the ADU, and the last one completes it. -/
theorem oneByteAtATime : Obligations.OneByteAtATime := by
  intro x s hx hv hcap hs hscript
  have hfirst := hs.hasFirst hv hcap x
  refine ⟨fun n hpos hn => ?_, ?_⟩
  · obtain ⟨t, hrun, ht, -, hout⟩ := run_feed1 hx hfirst hscript n hn
    exact ⟨t, hrun, hout hpos, ht.window, ht.complete⟩
  · obtain ⟨n, hn⟩ := Nat.exists_eq_add_one_of_ne_zero (Nat.ne_zero_of_lt hx.length_bounds.1)
    have hlt : n < x.length := hn ▸ Nat.lt_succ_self n
    obtain ⟨t, hrun, ht, hrest, -⟩ := run_feed1 hx hfirst hscript n hlt
    have hlast : x.take n ++ [x[n]] = x := by
      rw [List.take_append_getElem, ← hn, List.take_length]
    obtain ⟨u, hd, heq, hhd, hout, hwindow, hcomplete⟩ :=
      (ht.withScript (feed1 (x.drop (n + 1)))).process_last hx hlast
    have hone : x.length - n = 1 := by omega
    rw [hone] at hout
    refine ⟨u, hd, ?_, hhd, hout, hwindow, hcomplete⟩
    rw [hn]
    exact (core_run_succ_of_run hrun).trans ((step_feed1 hlt hrest).trans heq)

end Sys2Proof.Machine
end

section
/-! SUPPORT. The bit-pack codec (44_bitpack_external.md): `coilAt` read as the bit of a byte sequence, what one added bit and
the loop of `PACK` do to it, and the four statements about the codec. -/

namespace Sys2Proof.Machine

/-! ## Bytes and their bits -/

theorem bytesNeeded_le_iff {n m : Nat} : bytesNeeded n ≤ m ↔ n ≤ 8 * m := by
  unfold bytesNeeded
  omega

/-- Adding a clear bit carries nowhere, so it is setting the bit. -/
theorem getLsbD_add_two_pow {b : Byte} {i : Nat} (hi : i < 8) (hb : b.getLsbD i = false) (k : Nat) :
    (b + BitVec.ofNat 8 (2 ^ i)).getLsbD k = (b.getLsbD k || decide (k = i)) := by
  have hdisjoint : b &&& BitVec.twoPow 8 i = 0#8 := by
    rw [BitVec.and_twoPow, hb]
    rfl
  have hpow : BitVec.ofNat 8 (2 ^ i) = BitVec.twoPow 8 i :=
    BitVec.eq_of_toNat_eq (by simp)
  rw [hpow, BitVec.add_eq_or_of_and_eq_zero _ _ hdisjoint, BitVec.getLsbD_or, BitVec.getLsbD_twoPow]
  simp [hi, eq_comm]

theorem coilAt_of_getElem? {bytes : List Byte} {i : Nat} {b : Byte} (h : bytes[i / 8]? = some b) :
    coilAt bytes i = b.getLsbD (i % 8) := by
  rw [coilAt, h, BitVec.getLsbD, Nat.testBit_eq_decide_div_mod_eq]

theorem coilAt_mul_add {bytes : List Byte} {j i : Nat} {b : Byte} (h : bytes[j]? = some b) (hi : i < 8) :
    coilAt bytes (8 * j + i) = b.getLsbD i := by
  have hdiv : (8 * j + i) / 8 = j := by omega
  have hmod : (8 * j + i) % 8 = i := by omega
  rw [coilAt_of_getElem? (hdiv.symm ▸ h), hmod]

theorem coilAt_congr {bytes bytes' : List Byte} {i : Nat} (h : bytes[i / 8]? = bytes'[i / 8]?) :
    coilAt bytes i = coilAt bytes' i := by
  rw [coilAt, coilAt, h]

/-! ## The loop of `PACK` -/

/-- One turn of the loop, for a true coil (R171): bit `i` of the sequence is added. -/
def addCoil (i : Nat) (out : List Byte) : List Byte :=
  out.modify (i / 8) (fun b => b + BitVec.ofNat 8 (2 ^ (i % 8)))

@[simp] theorem length_addCoil (i : Nat) (out : List Byte) : (addCoil i out).length = out.length :=
  List.length_modify ..

theorem getElem?_addCoil_of_ne {i j : Nat} (h : i / 8 ≠ j) (out : List Byte) : (addCoil i out)[j]? = out[j]? := by
  simp [addCoil, h]

theorem coilAt_addCoil {i : Nat} {out : List Byte} (hi : i < 8 * out.length) (hclear : coilAt out i = false) (k : Nat) :
    coilAt (addCoil i out) k = (coilAt out k || decide (k = i)) := by
  by_cases hbyte : i / 8 = k / 8
  · have hlt : i / 8 < out.length := by omega
    obtain ⟨b, hget⟩ : ∃ b, out[i / 8]? = some b := ⟨_, List.getElem?_eq_getElem hlt⟩
    have hadd : (addCoil i out)[i / 8]? = some (b + BitVec.ofNat 8 (2 ^ (i % 8))) := by
      rw [addCoil, List.getElem?_modify_eq, hget, Option.map_eq_map, Option.map_some]
    rw [coilAt_of_getElem? hget] at hclear
    rw [hbyte] at hget hadd
    have hsame : k % 8 = i % 8 ↔ k = i := by omega
    rw [coilAt_of_getElem? hadd, coilAt_of_getElem? hget,
      getLsbD_add_two_pow (Nat.mod_lt _ (by decide)) hclear, decide_eq_decide.2 hsame]
  · have hne : k ≠ i := fun h => hbyte (h ▸ rfl)
    rw [coilAt_congr (getElem?_addCoil_of_ne hbyte out), decide_eq_false hne, Bool.or_false]

theorem setCoils_false (cs : List Bool) (i : Nat) (out : List Byte) :
    setCoils (false :: cs) i out = setCoils cs (i + 1) out := rfl

theorem setCoils_true (cs : List Bool) (i : Nat) (out : List Byte) :
    setCoils (true :: cs) i out = setCoils cs (i + 1) (addCoil i out) := rfl

@[simp] theorem length_setCoils (cs : List Bool) (i : Nat) (out : List Byte) :
    (setCoils cs i out).length = out.length := by
  induction cs generalizing i out with
  | nil => rfl
  | cons c cs ih => cases c <;> simp [setCoils_false, setCoils_true, ih]

/-- The loop leaves the bytes past its last coil. -/
theorem getElem?_setCoils_of_le {cs : List Bool} {i j : Nat} (h : i + cs.length ≤ 8 * j) (out : List Byte) :
    (setCoils cs i out)[j]? = out[j]? := by
  induction cs generalizing i out with
  | nil => rfl
  | cons c cs ih =>
    rw [List.length_cons] at h
    have hrest : i + 1 + cs.length ≤ 8 * j := by omega
    cases c with
    | false => rw [setCoils_false, ih hrest]
    | true => rw [setCoils_true, ih hrest, getElem?_addCoil_of_ne (by omega)]

/-- The coils from index `i` on: the first one, and the others from `i + 1` on. -/
theorem getD_cons_from (c : Bool) (cs : List Bool) (i k : Nat) :
    (decide (i ≤ k) && (c :: cs).getD (k - i) false) =
      ((decide (k = i) && c) || (decide (i + 1 ≤ k) && cs.getD (k - (i + 1)) false)) := by
  rcases Nat.lt_trichotomy k i with hlt | rfl | hgt
  · simp [Nat.not_le.2 hlt, Nat.ne_of_lt hlt, Nat.not_le.2 (Nat.lt_succ_of_lt hlt)]
  · simp
  · obtain ⟨d, rfl⟩ := Nat.exists_eq_add_of_lt hgt
    have hfirst : i + d + 1 - i = d + 1 := by omega
    have hrest : i + d + 1 - (i + 1) = d := by omega
    simp [hfirst, hrest, Nat.le_of_lt hgt, Nat.ne_of_gt hgt, Nat.succ_le_of_lt hgt]

/-- From `i` on the loop writes its coils over bits that are clear, and it keeps all other bits. -/
theorem coilAt_setCoils {cs : List Bool} {i : Nat} {out : List Byte} (hlen : i + cs.length ≤ 8 * out.length)
    (hclear : ∀ k, i ≤ k → k < i + cs.length → coilAt out k = false) (k : Nat) :
    coilAt (setCoils cs i out) k = (coilAt out k || (decide (i ≤ k) && cs.getD (k - i) false)) := by
  induction cs generalizing i out with
  | nil => simp [setCoils]
  | cons c cs ih =>
    rw [List.length_cons] at hlen hclear
    have hnext : ∀ k, i + 1 ≤ k → k < i + 1 + cs.length → coilAt out k = false := fun k h1 h2 =>
      hclear k (by omega) (by omega)
    rw [getD_cons_from]
    cases c with
    | false => simp [setCoils_false, ih (by omega) hnext]
    | true =>
      have hadd := coilAt_addCoil (by omega) (hclear i (by omega) (by omega))
      have hnext' : ∀ k, i + 1 ≤ k → k < i + 1 + cs.length → coilAt (addCoil i out) k = false := fun k h1 h2 => by
        simp [hadd, hnext k h1 h2, show k ≠ i by omega]
      rw [setCoils_true, ih (by rw [length_addCoil]; omega) hnext', hadd, Bool.and_true, Bool.or_assoc]

/-! ## `PACK` and `UNPACK` -/

/-- What `PACK` starts from: the used bytes zeroed, the others as they were (R171). -/
def cleared (n : Nat) (out : List Byte) : List Byte :=
  List.replicate (bytesNeeded n) 0#8 ++ out.drop (bytesNeeded n)

theorem length_cleared {n : Nat} {out : List Byte} (h : bytesNeeded n ≤ out.length) :
    (cleared n out).length = out.length := by
  simp [cleared, h]

theorem getElem?_cleared_of_lt {n j : Nat} (h : j < bytesNeeded n) (out : List Byte) :
    (cleared n out)[j]? = some 0#8 := by
  rw [cleared, List.getElem?_append_left (by simpa using h), List.getElem?_replicate_of_lt h]

theorem getElem?_cleared_of_le {n j : Nat} (h : bytesNeeded n ≤ j) (out : List Byte) :
    (cleared n out)[j]? = out[j]? := by
  simp [cleared, List.getElem?_append_right, h]

theorem coilAt_cleared {n k : Nat} (h : k / 8 < bytesNeeded n) (out : List Byte) : coilAt (cleared n out) k = false := by
  rw [coilAt_of_getElem? (getElem?_cleared_of_lt h out), BitVec.getLsbD_zero]

theorem pack_of_lt {coils : List Bool} {out : List Byte} (h : out.length < bytesNeeded coils.length) :
    pack coils out = .error .destinationTooSmall := if_pos h

theorem pack_of_le {coils : List Bool} {out : List Byte} (h : bytesNeeded coils.length ≤ out.length) :
    pack coils out = .ok (setCoils coils 0 (cleared coils.length out)) := if_neg (Nat.not_lt.2 h)

/-- Every bit of the used bytes after `PACK`: its coil, or 0 where there is none. -/
theorem coilAt_packed {coils : List Bool} {out : List Byte} (h : bytesNeeded coils.length ≤ out.length) {k : Nat}
    (hk : k / 8 < bytesNeeded coils.length) :
    coilAt (setCoils coils 0 (cleared coils.length out)) k = coils.getD k false := by
  have hfit : coils.length ≤ 8 * bytesNeeded coils.length := bytesNeeded_le_iff.1 (Nat.le_refl _)
  have hlen : 0 + coils.length ≤ 8 * (cleared coils.length out).length := by
    rw [length_cleared h]
    omega
  have hclear : ∀ k, 0 ≤ k → k < 0 + coils.length → coilAt (cleared coils.length out) k = false := fun k _ hlt =>
    coilAt_cleared (by omega) out
  rw [coilAt_setCoils hlen hclear, coilAt_cleared hk]
  simp

theorem unpack_of_lt {bytes : List Byte} {n : Nat} (h : bytes.length < bytesNeeded n) :
    unpack bytes n = .error .sourceTooSmall := if_pos h

theorem unpack_of_le {bytes : List Byte} {n : Nat} (h : bytesNeeded n ≤ bytes.length) :
    unpack bytes n = .ok ((List.range n).map (coilAt bytes)) := if_neg (Nat.not_lt.2 h)

/-! ## The statements -/

/-- Settles O58: the loop writes the coils over the zeroed bytes, and the bytes past the last coil are not among them. -/
theorem packResult : Obligations.PackResult := by
  refine fun coils out => ⟨pack_of_lt, fun h => ⟨_, pack_of_le h, ?_, fun j hj => ?_, fun j b hj hb i hi => ?_⟩⟩
  · rw [length_setCoils, length_cleared h]
  · have hpast : 0 + coils.length ≤ 8 * j := (Nat.zero_add _).symm ▸ bytesNeeded_le_iff.1 hj
    rw [getElem?_setCoils_of_le hpast, getElem?_cleared_of_le hj]
  · have hbyte : (8 * j + i) / 8 < bytesNeeded coils.length := by omega
    rw [← coilAt_mul_add hb hi, coilAt_packed h hbyte]

/-- Settles O60: `UNPACK` reads the bits below `n`, and after `PACK` each of them is its coil. -/
theorem packThenUnpack : Obligations.PackThenUnpack := by
  intro coils out h
  have hroom : bytesNeeded coils.length ≤ (setCoils coils 0 (cleared coils.length out)).length := by
    rwa [length_setCoils, length_cleared h]
  refine ⟨_, pack_of_le h, (unpack_of_le hroom).trans (congrArg _ (List.ext_getElem (by simp) fun k _ hk => ?_))⟩
  have hfit : coils.length ≤ 8 * bytesNeeded coils.length := bytesNeeded_le_iff.1 (Nat.le_refl _)
  rw [List.getElem_map, List.getElem_range, coilAt_packed h (by omega), List.getD_eq_getElem _ _ hk]

/-- Settles O57: to hold `n` bits and to be at least `BYTES_NEEDED n` are the same. -/
theorem bytesNeededIsTheCeiling : Obligations.BytesNeededIsTheCeiling :=
  fun _ => ⟨bytesNeeded_le_iff.1 (Nat.le_refl _), fun _ => bytesNeeded_le_iff.2⟩

/-- Settles O59: coil `i` is `coilAt` of the bytes at `i`, which is the bit of its byte. -/
theorem unpackResult : Obligations.UnpackResult := by
  refine fun bytes n => ⟨unpack_of_lt, fun h => ⟨_, unpack_of_le h, by simp, fun i b hi hb => ?_⟩⟩
  simp [hi, coilAt_of_getElem? hb]

end Sys2Proof.Machine
end

section
/-! SUPPORT. Exceptions (60_exceptions.md): where RESET and PROCESS fault and where they do not, and the state that is held while
no operation is issued. -/

namespace Sys2Proof.Machine

/-- The capacity is a maximum over the compiled-in variants, so it bounds each of them (00_scope.md R7). -/
theorem maxAdu_le_capOf {v : Variant} {variants : List Variant} (h : v ∈ variants) :
    Config.maxAdu v ≤ Config.capOf variants := by
  induction h with
  | head vs => exact Nat.le_max_left _ _
  | tail u _ ih => exact ih.trans (Nat.le_max_right _ _)

/-- Settles O16: the strapped variant's `MAX_ADU` is within the computed capacity, so the check of R210 passes. -/
theorem computedCapacityNeverTooSmall : Obligations.ComputedCapacityNeverTooSmall := by
  intro variants s hv hcap
  have hfits : Config.maxAdu s.variant ≤ s.cap := hcap ▸ maxAdu_le_capOf hv
  exact ⟨_, exec_reset_of_fits hfits, rfl, rfl⟩

/-- Settles O38: the first stop is in S5, after the append and the length query; the second comes before the contract is
asked anything, since the window cannot be read. -/
theorem processFaults : Obligations.ProcessFaults :=
  fun c chunk s => ⟨fun _ => processWith_of_short_length, processWith_out_of_range c chunk s⟩

/-- Settles O7: an empty script is the idle case of the step. -/
theorem idleStepHoldsTheState : Obligations.IdleStepHoldsTheState := fun _ => step_of_idle

end Sys2Proof.Machine
end

section
/-! SUPPORT. RESET and the end of the Packet (70_reset_and_hazards.md): RESET and PROCESS raise the count by which a read names
its Packet, nothing lowers it, and a read by another number is refused. -/

namespace Sys2Proof.Machine

/-- Settles O15: the outcomes of RESET on each side of the capacity check; with `USED` = 0 every byte is a free value. -/
theorem resetEmptiesTheFramer : Obligations.ResetEmptiesTheFramer :=
  fun _ => ⟨exec_reset_of_too_small, fun hfits => ⟨_, exec_reset_of_fits hfits, rfl, rfl, rfl, rfl, rfl,
    fun a => State.bufByte_of_ge (Nat.zero_le a), rfl, rfl, rfl⟩⟩

/-! ## The count of operations -/

theorem step_of_stale_view {s : State} {epoch : Nat} {rest : List Request} (hscript : s.script = .view epoch :: rest)
    (h : s.packet = none ∨ epoch ≠ s.epoch) : step s = .refused .stalePacket :=
  (step_of_view hscript).trans (viewPacket_of_stale (s := { s with script := rest }) h)

theorem processWith_epoch {c : Contract} {chunk : List Byte} {s t : State} (h : processWith c chunk s = .next t) :
    t.epoch = s.epoch + 1 := by
  obtain ⟨-, -, -, hepoch, -⟩ := processWith_frame h
  exact hepoch

theorem epoch_le_of_step {s t : State} (h : step s = .next t) : s.epoch ≤ t.epoch := by
  cases step_leads h with
  | idle => exact le_rfl
  | output rest o => exact le_rfl
  | reset rest => exact Nat.le_succ _
  | process rest chunk t hp =>
    rw [processWith_epoch hp]
    exact Nat.le_succ _

/-- A run of one step more that answers is a step that answers and a run from there. -/
theorem exists_step_of_core_run_succ {M : Host.Core} {n : Nat} {s t : M.State} (h : M.run (n + 1) s = .next t) :
    ∃ u, M.step s = .next u ∧ M.run n u = .next t := by
  rw [Host.Core.run] at h
  split at h
  · exact ⟨_, ‹_›, h⟩
  · cases h
  · cases h

theorem epoch_le_of_run {n : Nat} {s t : State} (h : Sys2Proof.core.run n s = .next t) : s.epoch ≤ t.epoch := by
  induction n generalizing s with
  | zero =>
    cases h
    exact le_rfl
  | succ n ih =>
    obtain ⟨u, hstep, hrun⟩ := exists_step_of_core_run_succ h
    exact (epoch_le_of_step hstep).trans (ih hrun)

/-! ## The operations that end the Packet, and the others -/

theorem exec_epoch_of_reset_or_process {i : Instr} {s t : State} (hi : i = .reset ∨ ∃ chunk, i = .process chunk)
    (h : exec i s = .next t) : t.epoch = s.epoch + 1 := by
  rcases hi with rfl | ⟨chunk, rfl⟩
  · rw [exec_reset_next h]
    rfl
  · exact processWith_epoch h

/-- A pure operation writes the output alone. -/
theorem exec_next_of_pure {i : Instr} {s t : State} (hreset : i ≠ .reset) (hprocess : ∀ chunk, i ≠ .process chunk)
    (h : exec i s = .next t) : ∃ o, t = s.returns o := by
  rcases exec_cases i with hi | ⟨chunk, hi⟩ | ⟨o, ho⟩
  · exact absurd hi hreset
  · exact absurd hi (hprocess chunk)
  · rw [ho] at h
    cases h
    exact ⟨o, rfl⟩

/-- Settles O55: the count has risen past every older Packet's number, and no run lowers it again. -/
theorem packetDiesAtTheNextOperation : Obligations.PacketDiesAtTheNextOperation := by
  refine ⟨fun _ _ _ hscript h => step_of_stale_view hscript h.symm, fun s t i hi h => ?_,
    fun _ _ => epoch_le_of_step, fun s t i hreset hprocess h => ?_⟩
  · have hraised := exec_epoch_of_reset_or_process hi h
    refine ⟨hraised, fun n u epoch rest hrun hold => step_of_stale_view rfl (.inr (Nat.ne_of_lt ?_))⟩
    calc epoch < t.epoch := hraised ▸ Nat.lt_succ_of_le hold
      _ ≤ u.epoch := epoch_le_of_run hrun
  · obtain ⟨o, rfl⟩ := exec_next_of_pure hreset hprocess h
    exact ⟨rfl, rfl, rfl⟩

end Sys2Proof.Machine
end
